-- ==== Sys2Proof/Word.lean ====
section
/-! DEFINITION. The bit-vector types of the block (00_scope.md R5: WIDTH 16, BYTE 8; 30_encoding.md R40: 10-bit
command words). Everything is unsigned (R8). Functions on them stand in Decode.lean and under Machine/. -/

namespace Sys2Proof

/-- A 16-bit value: ACC, RESULT, a TABLE entry (R5 WIDTH). -/
abbrev Word16 := BitVec 16

/-- An 8-bit value: a message byte or a TABLE index (R5 BYTE, R29). -/
abbrev Byte := BitVec 8

/-- One command word as presented on `cmd_i[9:0]` (R40). -/
abbrev CmdWord := BitVec 10

end Sys2Proof
end

