-- ==== Sys2Proof/Syntax.lean ====
section
/-! DEFINITION. The three commands, one constructor per row of spec/opcode_table.json (30_encoding.md R42). -/

namespace Sys2Proof

/-- A legal command (R42). The source's State argument and result are the implicit register ACC (R41). -/
inductive Instr where
  /-- INIT, no operand (R51). -/
  | init
  /-- UPDATE with its one operand, the message byte DATA (R41, R54). -/
  | update (byte : Byte)
  /-- FINALIZE, no operand (R63). -/
  | finalize
deriving DecidableEq, Repr

end Sys2Proof
end

