-- ==== Sys2Proof/Decode.lean ====
section
/-! DEFINITION. The command word format C, the total decoder, the encoder, and the opcode map as data
(30_encoding.md R40 to R47). Decoding takes the word alone: it does not depend on any state (R47). -/

namespace Sys2Proof

/-- OP = w[9:8] (R41). -/
def opField (w : CmdWord) : BitVec 2 := w.extractLsb' 8 2

/-- DATA = w[7:0] (R41, R43): the eight bits in place, unsigned, not reflected. -/
def dataField (w : CmdWord) : Byte := w.extractLsb' 0 8

/-- The three classes of illegal words (R44). -/
inductive IllegalWord where
  /-- OP = 0b11, any DATA: 0x300 to 0x3FF. -/
  | opUnassigned
  /-- OP = 0b00 with DATA ≠ 0: 0x001 to 0x0FF. -/
  | initDataNonzero
  /-- OP = 0b10 with DATA ≠ 0: 0x201 to 0x2FF. -/
  | finalizeDataNonzero
deriving DecidableEq, Repr

/-- What a word decodes to: a legal command, or ILLEGAL with the name of its class (R44, R47). -/
inductive Decoded where
  | instr (i : Instr)
  | illegal (why : IllegalWord)
deriving DecidableEq, Repr

/-- The class of a word that matches no row of R42 (R44). -/
def illegalClass (w : CmdWord) : IllegalWord :=
  if opField w = 0b11#2 then .opUnassigned
  else if opField w = 0b00#2 then .initDataNonzero
  else .finalizeDataNonzero

/-- `decode` of R47, total on all 1024 words. -/
def decode (w : CmdWord) : Decoded :=
  if w = 0x000#10 then .instr .init
  else if opField w = 0b01#2 then .instr (.update (dataField w))
  else if w = 0x200#10 then .instr .finalize
  else .illegal (illegalClass w)

/-- The word `{OP, DATA}` (R40). -/
def word (op : BitVec 2) (data : Byte) : CmdWord := (op ++ data).cast rfl

/-- `encode` of R47: 0x000, `{0b01, b}`, 0x200. -/
def encode : Instr → CmdWord
  | .init => 0x000#10
  | .update byte => word 0b01#2 byte
  | .finalize => 0x200#10

/-- The instruction of a legal word; none for an illegal one. -/
def Decoded.instr? : Decoded → Option Instr
  | .instr i => some i
  | .illegal _ => none

/-- Whether a word is one of the 258 legal ones (R42). -/
def isLegal (w : CmdWord) : Bool := (decode w).instr?.isSome

/-- One row of the opcode map (R42, opcode_table.json). -/
structure OpRow where
  mnemonic : String
  mask : CmdWord
  pattern : CmdWord
deriving DecidableEq, Repr

/-- The row selects `w` when `(w & mask) = match` (R42). -/
def OpRow.selects (r : OpRow) (w : CmdWord) : Bool := decide (w &&& r.mask = r.pattern)

/-- The row of each command (R42). -/
def opRow : Instr → OpRow
  | .init => ⟨"INIT", 0x3FF#10, 0x000#10⟩
  | .update _ => ⟨"UPDATE", 0x300#10, 0x100#10⟩
  | .finalize => ⟨"FINALIZE", 0x3FF#10, 0x200#10⟩

/-- The opcode map (R42). -/
def opcodeTable : List OpRow := [opRow .init, opRow (.update 0#8), opRow .finalize]

/-- The 10-bit word given by the low `nbits` bits of `w` (the table gives 10 bits, which is two whole bytes); none
when those bits are no 10-bit word, since there is no wider command word (R40; log 11). -/
def tableWord? (nbits w : Nat) : Option CmdWord :=
  if w % 2 ^ nbits < 1024 then some (BitVec.ofNat 10 (w % 2 ^ nbits)) else none

/-- The instruction the decoder reads from an instruction whose bits are `w`, numbered as opcode_table.json numbers
them: bit 0 is the least significant bit of the one word (R40). -/
def decodeTableWord (nbits w : Nat) : Option Instr :=
  (tableWord? nbits w).bind fun v => (decode v).instr?

end Sys2Proof
end

