-- ==== Sys2Proof/Config.lean ====
section
/-! DEFINITION. The configuration record `Cfg` of 00_scope.md R6 and the named profiles of R7. -/

namespace Sys2Proof

/-- The build-time parameters of one system (R6): fixed at elaboration, changed by no command and no reset.
The defaults are those of R6. -/
structure Cfg where
  /-- INIT_VALUE, the accumulator a new checksum starts from (R51). -/
  initValue : Word16 := 0xFFFF#16
  /-- XOR_OUT, exclusive-ORed into the accumulator by `fin` (R64). -/
  xorOut : Word16 := 0x0000#16
  /-- SWAP_OUT, whether `fin` exchanges the two bytes (R64). -/
  swapOut : Bool := false
  /-- N_INST, how many blocks the system holds (R95); at least 1, see `Cfg.wellFormed`. -/
  nInst : Nat := 1
  /-- PIPE_STAGES, register stages inside `poly_reduce_pipeline`; timing only (R108). -/
  pipeStages : Nat := 0
deriving DecidableEq, Repr

/-- The default profile CCITT_FALSE (R7): (0xFFFF, 0x0000, false). -/
def Cfg.ccittFalse : Cfg := { initValue := 0xFFFF#16, xorOut := 0x0000#16, swapOut := false }

/-- The admitted alternative profile XMODEM (R7): (0x0000, 0x0000, false). -/
def Cfg.xmodem : Cfg := { initValue := 0x0000#16, xorOut := 0x0000#16, swapOut := false }

end Sys2Proof
end

