-- ==== Sys2Proof/Machine/State.lean ====
section
/-! DEFINITION. The state of one block (10_state.md R13), its inputs (00_scope.md R10), its reset value (R27), and the
reasons a step or a run could stop. -/

namespace Sys2Proof.Machine

/-- PHASE (R16): three legal values; 0b11 is unrepresentable (R16, U6; log 5). -/
inductive Phase where
  /-- 0b00: no INIT since reset. -/
  | uninit
  /-- 0b01: a checksum is in progress. -/
  | accum
  /-- 0b10: the last checksum was finalized. -/
  | final
deriving DecidableEq, Repr

/-- FCAUSE (R20, R82): the code 3 never occurs and is unrepresentable (U7; log 5). -/
inductive FaultCause where
  /-- 0: no fault since reset. -/
  | noFault
  /-- 1: SEQ_ERR (R83). -/
  | seqErr
  /-- 2: ILLEGAL_CMD (R84). -/
  | illegalCmd
deriving DecidableEq, Repr

/-- One input of the command level (R10): Reset, or any 10-bit command word, legal or not. -/
inductive Input where
  | reset
  | cmd (w : CmdWord)
deriving DecidableEq, Repr

/-- The state of one instance: the seven registers of R13, and two fields of the model's own, `cfg` (the parameter
`Cfg` of the step function, R13, which no input writes; log 1) and `inputs` (what the host has still to present, in
order; R38, R68; log 2). -/
structure State where
  /-- The build-time parameters (R6). -/
  cfg : Cfg
  /-- ACC (R14). -/
  acc : Word16
  /-- PHASE (R16). -/
  phase : Phase
  /-- RESULT (R17). -/
  result : Word16
  /-- ERR_SEQ, sticky (R18). -/
  errSeq : Bool
  /-- ERR_ILL, sticky (R18). -/
  errIll : Bool
  /-- FCAUSE (R20). -/
  fcause : FaultCause
  /-- FCMD (R20). -/
  fcmd : CmdWord
  /-- The inputs still to be presented, first one first. -/
  inputs : List Input
deriving DecidableEq, Repr

/-- Faults that stop the machine: there are none. The block's two faults, SEQ_ERR and ILLEGAL_CMD, are not stops but
next states (R81, R86, R88: "The block does not halt"), see `FaultCause` and `takeFault` (log 6). -/
inductive Fault where
deriving DecidableEq, Repr

/-- Reasons the model gives no meaning. No step answers with either of them (R68: there is no refusal). -/
inductive Refusal where
  /-- Raised by `exec` alone, for an instruction that has no meaning yet; no arm uses it. Safe. -/
  | notModelled (mnemonic : String)
  /-- Raised by `runFromPowerUp` for a run that does not begin with Reset (R103, U8; log 7). Safe. -/
  | beforeFirstReset
deriving DecidableEq, Repr

/-- The reset values of R27 on a block built with `c`; nothing presented yet. -/
def State.resetWith (c : Cfg) : State where
  cfg := c
  acc := 0x0000#16
  phase := .uninit
  result := 0x0000#16
  errSeq := false
  errIll := false
  fcause := .noFault
  fcmd := 0x000#10
  inputs := []

/-- The machine right after reset (R27), built with the default profile (R6, R7). -/
def State.reset : State := State.resetWith Cfg.ccittFalse

end Sys2Proof.Machine
end

