-- ==== Sys2Proof/Machine/Operands.lean ====
section
/-! DEFINITION. Bit slices, concatenation, byte swap and the TABLE index: the operand forms of the block
(00_scope.md R8, R9; 41_update.md R62). -/

namespace Sys2Proof.Machine

/-- `hi(a) = a[15:8]` (R8). -/
def hi (a : Word16) : Byte := a.extractLsb' 8 8

/-- `lo(a) = a[7:0]` (R8). -/
def lo (a : Word16) : Byte := a.extractLsb' 0 8

/-- `{h, l}`, `h` in the more significant position (R8). -/
def pair (h l : Byte) : Word16 := (h ++ l).cast rfl

/-- `bswap16(v) = {v[7:0], v[15:8]}` (R9). -/
def bswap16 (v : Word16) : Word16 := pair (lo v) (hi v)

/-- The effective index `EA = ACC[15:8] ^ DATA` of UPDATE's one TABLE read (R62). -/
def tableIndex (a : Word16) (b : Byte) : Byte := hi a ^^^ b

end Sys2Proof.Machine
end

