-- ==== Sys2Proof/Machine/Table.lean ====
section
/-! DEFINITION. The TABLE ROM (20_memory.md R28 to R33): the one address space of the block, 256 entries of 16 bits,
constant for the whole life of the hardware, so a function and not part of State (R13, R30; log 10). -/

namespace Sys2Proof.Machine

/-- POLY, the generator polynomial with the x^16 term implicit (R5); a constant, not a parameter. -/
def poly : Word16 := 0x1021#16

/-- One single-bit reduction step: test bit 15, shift left by one with truncation, exclusive-OR POLY if the tested bit
was 1 (the body of the loop of R31 and of R57). -/
def bitStage (r : Word16) : Word16 :=
  if r.getLsbD 15 then (r <<< 1) ^^^ poly else r <<< 1

/-- `n` single-bit steps, one after another. -/
def bitStages : Nat → Word16 → Word16
  | 0, r => r
  | n + 1, r => bitStages n (bitStage r)

/-- `gen_entry(i)` of R31: eight steps from `{i, 0x00}`. -/
def genEntry (i : Byte) : Word16 := bitStages 8 (pair i 0x00#8)

/-- `MemRead(i, 2)`, also written `T[i]` (R9, R29): the whole 16-bit entry number `i`, by R31. Any 8-bit index names an
entry, so the read cannot be misaligned, out of range or fault (R35), and it has no side effect (R36). -/
def memRead (i : Byte) : Word16 := genEntry i

/-- Rows 0x00 to 0x38 of the listing of R32. -/
def tableListing0 : List Word16 :=
  [0x0000#16, 0x1021#16, 0x2042#16, 0x3063#16, 0x4084#16, 0x50A5#16, 0x60C6#16, 0x70E7#16]
  ++ [0x8108#16, 0x9129#16, 0xA14A#16, 0xB16B#16, 0xC18C#16, 0xD1AD#16, 0xE1CE#16, 0xF1EF#16]
  ++ [0x1231#16, 0x0210#16, 0x3273#16, 0x2252#16, 0x52B5#16, 0x4294#16, 0x72F7#16, 0x62D6#16]
  ++ [0x9339#16, 0x8318#16, 0xB37B#16, 0xA35A#16, 0xD3BD#16, 0xC39C#16, 0xF3FF#16, 0xE3DE#16]
  ++ [0x2462#16, 0x3443#16, 0x0420#16, 0x1401#16, 0x64E6#16, 0x74C7#16, 0x44A4#16, 0x5485#16]
  ++ [0xA56A#16, 0xB54B#16, 0x8528#16, 0x9509#16, 0xE5EE#16, 0xF5CF#16, 0xC5AC#16, 0xD58D#16]
  ++ [0x3653#16, 0x2672#16, 0x1611#16, 0x0630#16, 0x76D7#16, 0x66F6#16, 0x5695#16, 0x46B4#16]
  ++ [0xB75B#16, 0xA77A#16, 0x9719#16, 0x8738#16, 0xF7DF#16, 0xE7FE#16, 0xD79D#16, 0xC7BC#16]

/-- Rows 0x40 to 0x78 of the listing of R32. -/
def tableListing1 : List Word16 :=
  [0x48C4#16, 0x58E5#16, 0x6886#16, 0x78A7#16, 0x0840#16, 0x1861#16, 0x2802#16, 0x3823#16]
  ++ [0xC9CC#16, 0xD9ED#16, 0xE98E#16, 0xF9AF#16, 0x8948#16, 0x9969#16, 0xA90A#16, 0xB92B#16]
  ++ [0x5AF5#16, 0x4AD4#16, 0x7AB7#16, 0x6A96#16, 0x1A71#16, 0x0A50#16, 0x3A33#16, 0x2A12#16]
  ++ [0xDBFD#16, 0xCBDC#16, 0xFBBF#16, 0xEB9E#16, 0x9B79#16, 0x8B58#16, 0xBB3B#16, 0xAB1A#16]
  ++ [0x6CA6#16, 0x7C87#16, 0x4CE4#16, 0x5CC5#16, 0x2C22#16, 0x3C03#16, 0x0C60#16, 0x1C41#16]
  ++ [0xEDAE#16, 0xFD8F#16, 0xCDEC#16, 0xDDCD#16, 0xAD2A#16, 0xBD0B#16, 0x8D68#16, 0x9D49#16]
  ++ [0x7E97#16, 0x6EB6#16, 0x5ED5#16, 0x4EF4#16, 0x3E13#16, 0x2E32#16, 0x1E51#16, 0x0E70#16]
  ++ [0xFF9F#16, 0xEFBE#16, 0xDFDD#16, 0xCFFC#16, 0xBF1B#16, 0xAF3A#16, 0x9F59#16, 0x8F78#16]

/-- Rows 0x80 to 0xB8 of the listing of R32. -/
def tableListing2 : List Word16 :=
  [0x9188#16, 0x81A9#16, 0xB1CA#16, 0xA1EB#16, 0xD10C#16, 0xC12D#16, 0xF14E#16, 0xE16F#16]
  ++ [0x1080#16, 0x00A1#16, 0x30C2#16, 0x20E3#16, 0x5004#16, 0x4025#16, 0x7046#16, 0x6067#16]
  ++ [0x83B9#16, 0x9398#16, 0xA3FB#16, 0xB3DA#16, 0xC33D#16, 0xD31C#16, 0xE37F#16, 0xF35E#16]
  ++ [0x02B1#16, 0x1290#16, 0x22F3#16, 0x32D2#16, 0x4235#16, 0x5214#16, 0x6277#16, 0x7256#16]
  ++ [0xB5EA#16, 0xA5CB#16, 0x95A8#16, 0x8589#16, 0xF56E#16, 0xE54F#16, 0xD52C#16, 0xC50D#16]
  ++ [0x34E2#16, 0x24C3#16, 0x14A0#16, 0x0481#16, 0x7466#16, 0x6447#16, 0x5424#16, 0x4405#16]
  ++ [0xA7DB#16, 0xB7FA#16, 0x8799#16, 0x97B8#16, 0xE75F#16, 0xF77E#16, 0xC71D#16, 0xD73C#16]
  ++ [0x26D3#16, 0x36F2#16, 0x0691#16, 0x16B0#16, 0x6657#16, 0x7676#16, 0x4615#16, 0x5634#16]

/-- Rows 0xC0 to 0xF8 of the listing of R32. -/
def tableListing3 : List Word16 :=
  [0xD94C#16, 0xC96D#16, 0xF90E#16, 0xE92F#16, 0x99C8#16, 0x89E9#16, 0xB98A#16, 0xA9AB#16]
  ++ [0x5844#16, 0x4865#16, 0x7806#16, 0x6827#16, 0x18C0#16, 0x08E1#16, 0x3882#16, 0x28A3#16]
  ++ [0xCB7D#16, 0xDB5C#16, 0xEB3F#16, 0xFB1E#16, 0x8BF9#16, 0x9BD8#16, 0xABBB#16, 0xBB9A#16]
  ++ [0x4A75#16, 0x5A54#16, 0x6A37#16, 0x7A16#16, 0x0AF1#16, 0x1AD0#16, 0x2AB3#16, 0x3A92#16]
  ++ [0xFD2E#16, 0xED0F#16, 0xDD6C#16, 0xCD4D#16, 0xBDAA#16, 0xAD8B#16, 0x9DE8#16, 0x8DC9#16]
  ++ [0x7C26#16, 0x6C07#16, 0x5C64#16, 0x4C45#16, 0x3CA2#16, 0x2C83#16, 0x1CE0#16, 0x0CC1#16]
  ++ [0xEF1F#16, 0xFF3E#16, 0xCF5D#16, 0xDF7C#16, 0xAF9B#16, 0xBFBA#16, 0x8FD9#16, 0x9FF8#16]
  ++ [0x6E17#16, 0x7E36#16, 0x4E55#16, 0x5E74#16, 0x2E93#16, 0x3EB2#16, 0x0ED1#16, 0x1EF0#16]

/-- The listing of R32, entry `i` at position `i`. The definition is R31; that the two agree is `Laws.tableListing_eq`. -/
def tableListing : List Word16 := tableListing0 ++ tableListing1 ++ tableListing2 ++ tableListing3

end Sys2Proof.Machine
end

