-- ==== Sys2Proof/Machine/Datapath.lean ====
section
/-! DEFINITION. The combinational datapath: `poly_reduce_pipeline` in its table form and its bit-serial form
(41_update.md R55 to R59) and the final transform (42_finalize.md R64). None of it has state (R59). -/

namespace Sys2Proof.Machine

/-- `reduce` with the table given as `rom`: one entry read, at `hi(a) ^ b` (R55, R62). -/
def reduceWith (rom : Byte → Word16) (a : Word16) (b : Byte) : Word16 :=
  (a <<< 8) ^^^ rom (tableIndex a b)

/-- `reduce(a, b) = (a << 8) ^ T[hi(a) ^ b]` (R55). -/
def reduce (a : Word16) (b : Byte) : Word16 := reduceWith memRead a b

/-- Stage P1, index (R56). -/
def stageIndex (a : Word16) (b : Byte) : Byte := hi a ^^^ b

/-- Stage P2, lookup: the one TABLE read (R56). -/
def stageLookup (idx : Byte) : Word16 := memRead idx

/-- Stage P3, combine: `{a[7:0], 0x00} ^ t` (R56). -/
def stageCombine (aLo : Byte) (t : Word16) : Word16 := pair aLo 0x00#8 ^^^ t

/-- The sub-block `poly_reduce_pipeline` as the chain P1, P2, P3 (R56, R59). -/
def polyReducePipeline (a : Word16) (b : Byte) : Word16 :=
  stageCombine (lo a) (stageLookup (stageIndex a b))

/-- The bit-serial form `reduce_bits` (R57): the byte into bits 15:8, then the stages B1 to B8. -/
def reduceBits (a : Word16) (b : Byte) : Word16 := bitStages 8 (a ^^^ pair b 0x00#8)

/-- The final transform `fin` (R64): exclusive OR first, then the optional byte swap. -/
def fin (c : Cfg) (a : Word16) : Word16 :=
  if c.swapOut then bswap16 (a ^^^ c.xorOut) else a ^^^ c.xorOut

/-- `fin_inv` (R64). -/
def finInv (c : Cfg) (r : Word16) : Word16 :=
  (if c.swapOut then bswap16 r else r) ^^^ c.xorOut

end Sys2Proof.Machine
end

