-- ==== Sys2Proof/Machine/Flags.lean ====
section
/-! DEFINITION. The two sticky error flags, the first-fault record, the register encodings, and the read-only views
STATUS and FINFO (10_state.md R16 to R20, 60_exceptions.md R82, R86). No command produces a condition code (R18, R61). -/

namespace Sys2Proof.Machine

/-- The 2-bit encoding of PHASE (R16). -/
def Phase.toBits : Phase → BitVec 2
  | .uninit => 0b00#2
  | .accum => 0b01#2
  | .final => 0b10#2

/-- The cause code in FCAUSE (R20, R82). -/
def FaultCause.toBits : FaultCause → BitVec 2
  | .noFault => 0#2
  | .seqErr => 1#2
  | .illegalCmd => 2#2

/-- Set the sticky flag of a cause; the flag of the other cause is untouched (R86). -/
def setErrFlag (cause : FaultCause) (s : State) : State :=
  match cause with
  | .noFault => s
  | .seqErr => { s with errSeq := true }
  | .illegalCmd => { s with errIll := true }

/-- Record cause and word of the first fault since reset; later faults leave the record (R20, R86). -/
def recordFirstFault (cause : FaultCause) (w : CmdWord) (s : State) : State :=
  match s.fcause with
  | .noFault => { s with fcause := cause, fcmd := w }
  | .seqErr => s
  | .illegalCmd => s

/-- `err_o = ERR_SEQ | ERR_ILL` (R25). -/
def errLevel (s : State) : Bool := s.errSeq || s.errIll

/-- `result_valid_o`: 1 if PHASE = FINAL (R25). -/
def resultValid (s : State) : Bool := decide (s.phase = .final)

/-- `STATUS = {ERR_ILL, ERR_SEQ, PHASE[1:0]}`, a view without storage (R19). -/
def statusView (s : State) : BitVec 4 :=
  (BitVec.ofBool s.errIll ++ (BitVec.ofBool s.errSeq ++ s.phase.toBits)).cast rfl

/-- `FINFO = {FCAUSE[1:0], FCMD[9:0]}` (R20). -/
def finfoView (s : State) : BitVec 12 := (s.fcause.toBits ++ s.fcmd).cast rfl

end Sys2Proof.Machine
end

