-- ==== Sys2Proof/Machine/Ops.lean ====
section
/-! DEFINITION. The named operations over the registers: register writes, the fault action (60_exceptions.md R86), the
phase check shared by UPDATE and FINALIZE (R83), Reset (70_reset_and_hazards.md R97), and the fetch of the next input.
There is no return from a fault to model: a fault starts no handler and the next input executes normally (R86, R88). -/

namespace Sys2Proof.Machine

/-- `ACC <- v` (R9, R14). -/
def State.setAcc (s : State) (v : Word16) : State := { s with acc := v }

/-- `PHASE <- p` (R9, R16). -/
def State.setPhase (s : State) (p : Phase) : State := { s with phase := p }

/-- `RESULT <- v` (R9, R17). -/
def State.setResult (s : State) (v : Word16) : State := { s with result := v }

/-- What the host has still to present. -/
def State.setInputs (s : State) (l : List Input) : State := { s with inputs := l }

/-- TAKING A FAULT, the one shared operation (R86): `raise Fault(cause, w)` records cause and word if this is the first
fault since reset, sets the sticky flag of the cause, and changes nothing else: ACC, PHASE, RESULT and the other flag
are as they were, nothing is saved anywhere else, and no control transfer happens. -/
def takeFault (cause : FaultCause) (w : CmdWord) (s : State) : State :=
  setErrFlag cause (recordFirstFault cause w s)

/-- The phase check of UPDATE and FINALIZE (R83): in ACCUM the command has its `effect`; in UNINIT and FINAL it raises
SEQ_ERR with its own command word, which is `encode i` because each legal command has exactly one word (R47; log 4). -/
def whenAccumulating (i : Instr) (effect : State → State) (s : State) : Host.Outcome State Fault Refusal :=
  match s.phase with
  | .accum => .next (effect s)
  | .uninit => .next (takeFault .seqErr (encode i) s)
  | .final => .next (takeFault .seqErr (encode i) s)

/-- The Reset input (R97, R98): all seven registers to the values of R27; Cfg is unaffected, and so is what the host
has still to present. -/
def applyReset (s : State) : State := (State.resetWith s.cfg).setInputs s.inputs

/-- Take the next input the host presents, if any. -/
def fetchInput (s : State) : Option (Input × State) :=
  match s.inputs with
  | [] => none
  | inp :: rest => some (inp, s.setInputs rest)

/-- Put a command word in front of what the host presents. -/
def presentWord (w : CmdWord) (s : State) : State := s.setInputs (.cmd w :: s.inputs)

end Sys2Proof.Machine
end

