-- ==== Sys2Proof/Machine/Finalize.lean ====
section
/-! DEFINITION. The FINALIZE command (42_finalize.md R63 to R67). -/

namespace Sys2Proof.Machine

/-- FINALIZE (R63): in ACCUM, `RESULT <- fin(ACC)` and `PHASE <- FINAL`, ACC kept (R65); otherwise SEQ_ERR (R66). -/
def execFinalize (s : State) : Host.Outcome State Fault Refusal :=
  whenAccumulating .finalize (fun t => (t.setResult (fin t.cfg t.acc)).setPhase .final) s

end Sys2Proof.Machine
end

