-- ==== Sys2Proof/Machine/Init.lean ====
section
/-! DEFINITION. The INIT command (40_init.md R51 to R53). -/

namespace Sys2Proof.Machine

/-- INIT (R51): `ACC <- Cfg.INIT_VALUE`, `PHASE <- ACCUM`; in sequence in every phase (R52), no fault, no TABLE access. -/
def execInit (s : State) : Host.Outcome State Fault Refusal :=
  .next ((s.setAcc s.cfg.initValue).setPhase .accum)

end Sys2Proof.Machine
end

