-- ==== Sys2Proof/Machine/Update.lean ====
section
/-! DEFINITION. The UPDATE command (41_update.md R54 to R62). -/

namespace Sys2Proof.Machine

/-- UPDATE (R54) with the TABLE given as `rom`: in ACCUM, `ACC <- reduce(ACC, byte)`; otherwise SEQ_ERR. The parameter
is there so that what a command reads of TABLE (R36, R62) can be stated; the hardware's table is `memRead`. -/
def execUpdateWith (rom : Byte → Word16) (byte : Byte) (s : State) : Host.Outcome State Fault Refusal :=
  whenAccumulating (.update byte) (fun t => t.setAcc (reduceWith rom t.acc byte)) s

/-- UPDATE (R54) on the TABLE of R31. -/
def execUpdate (byte : Byte) (s : State) : Host.Outcome State Fault Refusal := execUpdateWith memRead byte s

end Sys2Proof.Machine
end

