-- ==== Sys2Proof/Machine/Accept.lean ====
section
/-! DEFINITION. What one accepted input does: the body of `step` of 43_streams_and_laws.md R68, with the decode check
before the phase check (60_exceptions.md R85). -/

namespace Sys2Proof.Machine

/-- A command word: an illegal one raises ILLEGAL_CMD in any phase (R84, R85), a legal one executes. -/
def acceptWord (w : CmdWord) (s : State) : Host.Outcome State Fault Refusal :=
  match decode w with
  | .instr i => exec i s
  | .illegal _ => .next (takeFault .illegalCmd w s)

/-- One input of the command level (R10, R68). -/
def acceptInput (inp : Input) (s : State) : Host.Outcome State Fault Refusal :=
  match inp with
  | .reset => .next (applyReset s)
  | .cmd w => acceptWord w s

end Sys2Proof.Machine
end

