-- ==== Sys2Proof/Machine/Step.lean ====
section
/-! DEFINITION. One step: the next input the host presents takes effect, whole (20_memory.md R38,
43_streams_and_laws.md R68). With nothing presented the block holds its state (60_exceptions.md R94; log 3). -/

namespace Sys2Proof.Machine

/-- One step of the block. -/
def step (s : State) : Host.Outcome State Fault Refusal :=
  match fetchInput s with
  | none => .next s
  | some (inp, t) => acceptInput inp t

/-- `s` with the word of opcode_table.json's numbering presented next (its bits above the 10 of a command word are no
part of it, R40; log 11). -/
def State.withFetchWord (s : State) (nbits w : Nat) : State :=
  presentWord (BitVec.ofNat 10 (w % 2 ^ nbits)) s

end Sys2Proof.Machine
end

