-- ==== Sys2Proof/Machine/Streams.lean ====
section
/-! DEFINITION. Command streams: the total step of 43_streams_and_laws.md R68, runs, the checksum function of R69,
runs from power-up (70_reset_and_hazards.md R103), and the host's reading of the data outputs (10_state.md R26). -/

namespace Sys2Proof.Machine

/-- The state after one input: `step(s, inp)` of R68 as a total function. (`acceptInput` always answers a next state,
`Laws.acceptInput_eq_after`; the other arms of the match are never taken.) -/
def after (s : State) (inp : Input) : State :=
  match acceptInput inp s with
  | .next t => t
  | .fault _ => s
  | .refused _ => s

/-- `run` of R68: the left fold of the step over the input list. -/
def runInputs (s : State) (l : List Input) : State := l.foldl after s

/-- The states after every input of a list, as the listings of R50 show them. -/
def trace : State → List Input → List State
  | _, [] => []
  | s, inp :: rest => after s inp :: trace (after s inp) rest

/-- The command of an instruction as an input. -/
def Input.ofInstr (i : Instr) : Input := .cmd (encode i)

/-- One source-level `update` call: one UPDATE command per byte, in order (R70). -/
def updates (m : List Byte) : List Input := m.map fun b => Input.ofInstr (.update b)

/-- The stream `INIT, UPD b1, ..., UPD bn, FIN` of R69. -/
def checksumStream (m : List Byte) : List Input :=
  Input.ofInstr .init :: (updates m ++ [Input.ofInstr .finalize])

/-- `acc_of(m)` (R69). -/
def accOf (c : Cfg) (m : List Byte) : Word16 := m.foldl reduce c.initValue

/-- `crc(m)` (R69): the function that the laws R71 to R76 and R79 speak of. -/
def crc (c : Cfg) (m : List Byte) : Word16 := fin c (accOf c m)

/-- Two messages have the same length and differ in exactly one byte (R75, the premise of the sensitivity law; see
`Laws.differInOneByte_iff`). -/
def differInOneByte : List Byte → List Byte → Bool
  | [], [] => false
  | [], _ :: _ => false
  | _ :: _, [] => false
  | b :: m, b' :: m' => if b = b' then differInOneByte m m' else decide (m = m')

/-- A run from power-up: before the first Reset every register is unspecified, so a run has a meaning only if it
begins with Reset; any other is refused (R103, U8; log 7). -/
def runFromPowerUp (c : Cfg) : List Input → Host.Outcome State Fault Refusal
  | [] => .refused .beforeFirstReset
  | .cmd _ :: _ => .refused .beforeFirstReset
  | .reset :: rest => .next (runInputs (State.resetWith c) rest)

/-- What the host may take from `acc_o` (R26): the checksum state; nothing in UNINIT, where the source's state has no
value (U10; log 8). -/
def hostChecksumState (s : State) : Option Word16 :=
  match s.phase with
  | .uninit => none
  | .accum => some s.acc
  | .final => some s.acc

/-- What the host may take from `result_o` (R26): the checksum, only while `result_valid_o` = 1 (U10; log 8). -/
def hostResult (s : State) : Option Word16 :=
  match s.phase with
  | .uninit => none
  | .accum => none
  | .final => some s.result

end Sys2Proof.Machine
end

