-- ==== Sys2Proof/Machine/Assembler.lean ====
section
/-! DEFINITION. The assembler notation of 30_encoding.md R48 to R50: lines, the check of their operands, the expansion of
the pseudo-instructions, the inputs they stand for, and the reading of a text line (log 14 for what R48 leaves open).
Texts are lists of characters, so that a test can evaluate them. -/

namespace Sys2Proof.Machine

/-- One line of a command stream (R48) or a pseudo-instruction (R49). Numbers are as written, not yet checked. -/
inductive AsmLine where
  | init
  | upd (byte : Nat)
  | fin
  | word (w : Nat)
  | reset
  | upds (text : List Char)
  | updb (bytes : List Nat)
  | crc (text : List Char)
  | crcb (bytes : List Nat)
deriving DecidableEq, Repr

/-- A number that is a byte (R48: `0 <= byte <= 255`). -/
def isByteOperand (n : Nat) : Bool := decide (n ≤ 255)

/-- A character with a 7-bit ASCII code (R8). -/
def isAsciiChar (c : Char) : Bool := decide (c.toNat < 128)

/-- The operands a line may have: bytes from 0 to 255, raw words of 10 bits, ASCII characters (R8, R48, R49). A line
outside these is rejected by the assembler; it has no encoding (R48). -/
def AsmLine.wellFormed : AsmLine → Bool
  | .init => true
  | .upd byte => isByteOperand byte
  | .fin => true
  | .word w => decide (w < 1024)
  | .reset => true
  | .upds text => text.all isAsciiChar
  | .updb bytes => bytes.all isByteOperand
  | .crc text => text.all isAsciiChar
  | .crcb bytes => bytes.all isByteOperand

/-- `UPD c` for each character's ASCII code (R49). -/
def updsLines (text : List Char) : List AsmLine := text.map fun c => .upd c.toNat

/-- `UPD b` for each byte (R49). -/
def updbLines (bytes : List Nat) : List AsmLine := bytes.map AsmLine.upd

/-- The expansion of the pseudo-instructions (R49); any other line stands for itself. -/
def AsmLine.expand : AsmLine → List AsmLine
  | .init => [.init]
  | .upd byte => [.upd byte]
  | .fin => [.fin]
  | .word w => [.word w]
  | .reset => [.reset]
  | .upds text => updsLines text
  | .updb bytes => updbLines bytes
  | .crc text => .init :: (updsLines text ++ [.fin])
  | .crcb bytes => .init :: (updbLines bytes ++ [.fin])

/-- The input a core line of R48 stands for; a pseudo-instruction stands for none by itself. -/
def AsmLine.input? : AsmLine → Option Input
  | .init => some (Input.ofInstr .init)
  | .upd byte => some (Input.ofInstr (.update (BitVec.ofNat 8 byte)))
  | .fin => some (Input.ofInstr .finalize)
  | .word w => some (.cmd (BitVec.ofNat 10 w))
  | .reset => some .reset
  | .upds _ => none
  | .updb _ => none
  | .crc _ => none
  | .crcb _ => none

/-- The inputs of one line; none if the assembler rejects it. -/
def assembleLine (l : AsmLine) : Option (List Input) :=
  if l.wellFormed then some (l.expand.filterMap AsmLine.input?) else none

/-- The inputs of a program; none if any line is rejected. -/
def assemble : List AsmLine → Option (List Input)
  | [] => some []
  | l :: rest =>
    match assembleLine l, assemble rest with
    | some a, some b => some (a ++ b)
    | _, _ => none

/-! ### Reading a text line -/

/-- The double quote. -/
def dquote : Char := Char.ofNat 34

/-- The single quote. -/
def squote : Char := Char.ofNat 39

/-- Space or tab. -/
def isBlank (c : Char) : Bool := c == ' ' || c == '\t'

/-- How many characters after `c` belong to a quoted byte that `c` opens: 2 where `c` is a single quote and the second
character after it is one too, else 0. So the character between the quotes may be any, a quote, a comma or a semicolon
included. DESIGN CHOICE (log 14: R48 and R49 give no rule for quoted bytes). -/
def quotedTail (c : Char) (cs : List Char) : Nat :=
  if c == squote && cs[1]? == some squote then 2 else 0

/-- The line up to the `;` that starts a comment (R48). DESIGN CHOICE (log 14: R48 does not speak of quotes): a `;` in a
text between double quotes (`inText`) or inside a quoted byte (of which `skip` characters are still to pass) starts
none. -/
def stripComment (inText : Bool) : (skip : Nat) → List Char → List Char
  | _, [] => []
  | n + 1, c :: cs => c :: stripComment inText n cs
  | 0, c :: cs =>
    if inText then c :: stripComment (c != dquote) 0 cs
    else if c == ';' then []
    else c :: stripComment (c == dquote) (quotedTail c cs) cs

/-- Without leading and trailing blanks. -/
def trimBlanks (cs : List Char) : List Char :=
  ((cs.dropWhile isBlank).reverse.dropWhile isBlank).reverse

/-- Capital letters, for the case-insensitive mnemonics (R48). -/
def upperChar (c : Char) : Char :=
  if 97 ≤ c.toNat ∧ c.toNat ≤ 122 then Char.ofNat (c.toNat - 32) else c

/-- The value of a digit in base 10 or 16. -/
def digitValue (c : Char) : Nat :=
  if 48 ≤ c.toNat ∧ c.toNat ≤ 57 then c.toNat - 48
  else if 65 ≤ c.toNat ∧ c.toNat ≤ 70 then c.toNat - 55
  else if 97 ≤ c.toNat ∧ c.toNat ≤ 102 then c.toNat - 87
  else 16

/-- A non-empty sequence of digits of the base. -/
def parseDigits (base : Nat) (cs : List Char) : Option Nat :=
  if !cs.isEmpty && cs.all (fun c => decide (digitValue c < base)) then
    some (cs.foldl (fun n c => n * base + digitValue c) 0)
  else none

/-- A number: hexadecimal with `0x`, or decimal (R48). -/
def parseNumber : List Char → Option Nat
  | '0' :: 'x' :: cs => parseDigits 16 cs
  | cs => parseDigits 10 cs

/-- A byte operand: a number (R48); or, DESIGN CHOICE (log 14), one character in single quotes, as the programs of
95_test_vectors.md write it. The quoted character stands for its ASCII code: one outside 7-bit ASCII (a code of 128 or
more) is no byte, as in a text (R8). -/
def parseByte (cs : List Char) : Option Nat :=
  match cs with
  | [a, c, b] =>
    if a == squote && b == squote then (if isAsciiChar c then some c.toNat else none) else parseNumber cs
  | _ => parseNumber cs

/-- A text in double quotes. -/
def parseText (cs : List Char) : Option (List Char) :=
  match cs with
  | [] => none
  | a :: rest =>
    match rest.reverse with
    | [] => none
    | b :: mid =>
      if a == dquote && b == dquote && !mid.contains dquote then some mid.reverse else none

/-- Split at commas; `cur` is the current part, reversed. DESIGN CHOICE (log 14): a comma inside a quoted byte (of which
`skip` characters are still to pass) does not split. -/
def splitCommas (cur : List Char) : (skip : Nat) → List Char → List (List Char)
  | _, [] => [cur.reverse]
  | n + 1, c :: cs => splitCommas (c :: cur) n cs
  | 0, c :: cs =>
    if c == ',' then cur.reverse :: splitCommas [] 0 cs else splitCommas (c :: cur) (quotedTail c cs) cs

/-- All of a list, or none if one is missing. -/
def allSome {α : Type} : List (Option α) → Option (List α)
  | [] => some []
  | none :: _ => none
  | some a :: rest => (allSome rest).map (a :: ·)

/-- `b1, b2, ..., bn`, or nothing (R49). -/
def parseBytes (cs : List Char) : Option (List Nat) :=
  if cs.isEmpty then some [] else allSome ((splitCommas [] 0 cs).map fun p => parseByte (trimBlanks p))

/-- A line whose operand must be absent. -/
def noOperand (l : AsmLine) (rest : List Char) : Option AsmLine := if rest.isEmpty then some l else none

/-- A mnemonic, in capitals, with its operand text (R48, R49). -/
def parseCommand (m rest : List Char) : Option AsmLine :=
  if m = ['I', 'N', 'I', 'T'] then noOperand .init rest
  else if m = ['U', 'P', 'D'] then (parseByte rest).map AsmLine.upd
  else if m = ['F', 'I', 'N'] then noOperand .fin rest
  else if m = ['.', 'W', 'O', 'R', 'D'] then (parseNumber rest).map AsmLine.word
  else if m = ['R', 'E', 'S', 'E', 'T'] then noOperand .reset rest
  else if m = ['U', 'P', 'D', 'S'] then (parseText rest).map AsmLine.upds
  else if m = ['U', 'P', 'D', 'B'] then (parseBytes rest).map AsmLine.updb
  else if m = ['C', 'R', 'C'] then (parseText rest).map AsmLine.crc
  else if m = ['C', 'R', 'C', 'B'] then (parseBytes rest).map AsmLine.crcb
  else none

/-- One text line: `some []` for a blank or comment line, `none` for a line that is no command. -/
def parseLine (cs : List Char) : Option (List AsmLine) :=
  let t := trimBlanks (stripComment false 0 cs)
  if t.isEmpty then some []
  else
    (parseCommand ((t.takeWhile fun c => !isBlank c).map upperChar)
      (trimBlanks (t.dropWhile fun c => !isBlank c))).map ([·])

/-- A program text, one command per line (R48), to the inputs it stands for. -/
def assembleText (lines : List (List Char)) : Option (List Input) :=
  (allSome (lines.map parseLine)).bind fun ls => assemble ls.flatten

end Sys2Proof.Machine
end

