-- ==== Sys2Proof/Machine/System.lean ====
section
/-! DEFINITION. Several blocks (60_exceptions.md R95): N_INST independent copies, each with its own State and its own
inputs; the system's step is the product of the blocks' steps. -/

namespace Sys2Proof.Machine

/-- A system of blocks, numbered from 0 (the number is the model's: blocks have no identifier visible to themselves). -/
structure System where
  blocks : List State
deriving DecidableEq, Repr

/-- N_INST blocks, all built with the same Cfg and all in the reset state (R95). -/
def System.resetWith (c : Cfg) : System := ⟨List.replicate c.nInst (State.resetWith c)⟩

/-- An input for one block: that block takes its step, no other block changes (R95); a number that no block has
changes nothing (log 13). -/
def System.after (sys : System) (x : Nat × Input) : System :=
  ⟨sys.blocks.modify x.1 fun s => Machine.after s x.2⟩

/-- Any interleaving of inputs for the blocks. -/
def System.run (sys : System) (l : List (Nat × Input)) : System := l.foldl System.after sys

/-- The inputs that an interleaving gives to block `k`, in order. -/
def inputsOf (k : Nat) (l : List (Nat × Input)) : List Input :=
  l.filterMap fun x => if x.1 = k then some x.2 else none

end Sys2Proof.Machine
end

