-- ==== Sys2Proof/Machine/Ports.lean ====
section
/-! DEFINITION. The port level, edge by edge, for every PIPE_STAGES: pins (10_state.md R24), outputs (R25), handshake and
clocking (70_reset_and_hazards.md R100, R104 to R109). -/

namespace Sys2Proof.Machine

/-- The input pins as sampled at one rising edge of `clk_i` (R24). -/
structure Pins where
  rst : Bool
  cmdValid : Bool
  cmd : CmdWord
deriving DecidableEq, Repr

/-- The outputs that are views of registers (R25); `cmd_ready_o` is `PortState.cmdReady`. -/
structure Outputs where
  acc : Word16
  result : Word16
  resultValid : Bool
  phase : BitVec 2
  errSeq : Bool
  errIll : Bool
  err : Bool
  finfo : BitVec 12
deriving DecidableEq, Repr

/-- The output values as direct views of the registers (R25). -/
def outputs (s : State) : Outputs where
  acc := s.acc
  result := s.result
  resultValid := resultValid s
  phase := s.phase.toBits
  errSeq := s.errSeq
  errIll := s.errIll
  err := errLevel s
  finfo := finfoView s

/-- The register-backed output ports of R25 (all but `cmd_ready_o`), by name. -/
inductive OutPort where
  | acc | result | resultValid | phase | errSeq | errIll | err | finfo
deriving DecidableEq, Repr

/-- A command accepted and not yet in the registers (R108). `edgesLeft` is its place in the register stages of the
pipeline, said as the edges it still has to pass; it exists only while the command is in flight and counts no time
(R94). -/
structure InFlight where
  word : CmdWord
  edgesLeft : Nat
deriving DecidableEq, Repr

/-- The block at port level: its registers and what its pipeline stages hold. There is no cycle counter (R94): an idle
edge changes nothing. -/
structure PortState where
  block : State
  inFlight : Option InFlight
deriving DecidableEq, Repr

/-- The port-level reset state (R98: reset also empties the pipeline registers). -/
def PortState.resetWith (c : Cfg) : PortState := ⟨State.resetWith c, none⟩

/-- `cmd_ready_o` (R105, R108): 0 while `rst_i` = 1, and 0 while a command is in flight. It does not depend on
`cmd_valid_i` or `cmd_i`. -/
def PortState.cmdReady (p : PortState) (rst : Bool) : Bool := !rst && p.inFlight.isNone

/-- The word accepted at this edge, if any (R105). -/
def PortState.accepted (p : PortState) (pins : Pins) : Option CmdWord :=
  if pins.cmdValid && p.cmdReady pins.rst then some pins.cmd else none

/-- Start an accepted command: with PIPE_STAGES = 0 it is in the registers at this edge (R106); otherwise it enters the
pipeline and its effect comes PIPE_STAGES edges later, so that it costs `1 + PIPE_STAGES` cycles (R108; log 12). -/
def PortState.launch (p : PortState) (w : CmdWord) : PortState :=
  match p.block.cfg.pipeStages with
  | 0 => { p with block := after p.block (.cmd w) }
  | k + 1 => { p with inFlight := some ⟨w, k + 1⟩ }

/-- Move a command in flight on by one edge; at its last edge its effect reaches the registers (R108). -/
def PortState.advance (p : PortState) (f : InFlight) : PortState :=
  match f.edgesLeft with
  | 0 => { p with block := after p.block (.cmd f.word), inFlight := none }
  | 1 => { p with block := after p.block (.cmd f.word), inFlight := none }
  | n + 2 => { p with inFlight := some ⟨f.word, n + 1⟩ }

/-- Reset at an edge (R97, R98, R100): the registers, and the pipeline emptied. -/
def PortState.applyReset (p : PortState) : PortState :=
  { p with block := Machine.applyReset p.block, inFlight := none }

/-- One rising edge of `clk_i` (R104, R105): its effect on the registers and the pipeline. -/
def PortState.edge (p : PortState) (pins : Pins) : PortState :=
  if pins.rst then p.applyReset
  else match p.inFlight with
    | some f => p.advance f
    | none => if pins.cmdValid then p.launch pins.cmd else p

/-- A sequence of edges. -/
def PortState.run (p : PortState) (l : List Pins) : PortState := l.foldl PortState.edge p

/-- The command-level input of one edge (R105): Reset where `rst_i` = 1, the accepted word, or nothing. -/
def PortState.inputOf (p : PortState) (pins : Pins) : List Input :=
  if pins.rst then [.reset]
  else match p.accepted pins with
    | some w => [.cmd w]
    | none => []

/-- The input list of the command-level run that a sequence of edges performs (R105). -/
def PortState.acceptedInputs : PortState → List Pins → List Input
  | _, [] => []
  | p, pins :: rest => p.inputOf pins ++ PortState.acceptedInputs (p.edge pins) rest

/-- The state after exactly the commands accepted so far: the registers, with a command in flight completed. -/
def PortState.settled (p : PortState) : State :=
  match p.inFlight with
  | none => p.block
  | some f => after p.block (.cmd f.word)

/-- The state that an output port shows: the registers; while a command is in flight, the state before or after it, as
`showsAfter` says for that port. FREE VALUE (R108, U9; log 9): the spec allows either state, so `showsAfter` is an
argument, and a statement about outputs holds for every one. -/
def PortState.shown (p : PortState) (showsAfter : OutPort → Bool) (o : OutPort) : State :=
  match p.inFlight with
  | none => p.block
  | some _ => if showsAfter o then p.settled else p.block

/-- The outputs during a cycle (R25, R106, R108), under one choice `showsAfter` of the free value of `shown`. -/
def PortState.outputs (p : PortState) (showsAfter : OutPort → Bool) : Outputs where
  acc := (p.shown showsAfter .acc).acc
  result := (p.shown showsAfter .result).result
  resultValid := resultValid (p.shown showsAfter .resultValid)
  phase := (p.shown showsAfter .phase).phase.toBits
  errSeq := (p.shown showsAfter .errSeq).errSeq
  errIll := (p.shown showsAfter .errIll).errIll
  err := errLevel (p.shown showsAfter .err)
  finfo := finfoView (p.shown showsAfter .finfo)

end Sys2Proof.Machine
end

