-- ==== Sys2Proof/Machine/TableReads.lean ====
section
/-! DEFINITION. What a command reads of TABLE (20_memory.md R36, 41_update.md R62). -/

namespace Sys2Proof.Machine

/-- The commands on a table other than the hardware's: `exec` is this on `memRead`. Only UPDATE has a table to read. -/
def execWithRom (rom : Byte → Word16) (i : Instr) (s : State) : Host.Outcome State Fault Refusal :=
  match i with
  | .init => execInit s
  | .update byte => execUpdateWith rom byte s
  | .finalize => execFinalize s

/-- The TABLE indices a command reads (R36): UPDATE in sequence exactly one, `ACC[15:8] ^ DATA` (R62); INIT, FINALIZE
and a faulting command none. -/
def tableReads (i : Instr) (s : State) : List Byte :=
  match i with
  | .init => []
  | .update byte => if s.phase = .accum then [tableIndex s.acc byte] else []
  | .finalize => []

end Sys2Proof.Machine
end

