-- ==== Sys2Proof/Safety.lean ====
section
/-! DEFINITION. What claims call a fault, a fault-free state and a trustworthy result, and the invariants of the block
(10_state.md R20, R26; 60_exceptions.md R81 to R84, R88, R96). -/

namespace Sys2Proof.Machine

/-- Whether the word `w`, presented in state `s`, raises a fault, and which (R83, R84, R85). -/
def faultOf (w : CmdWord) (s : State) : FaultCause :=
  match decode w with
  | .illegal _ => .illegalCmd
  | .instr .init => .noFault
  | .instr (.update _) => if s.phase = .accum then .noFault else .seqErr
  | .instr .finalize => if s.phase = .accum then .noFault else .seqErr

/-- No fault is recorded (R88: "ERR_SEQ = 0 and ERR_ILL = 0"). -/
def faultFree (s : State) : Bool := !s.errSeq && !s.errIll

/-- The fault record of two states is the same: both flags, cause and word. -/
abbrev sameFaultRecord (s t : State) : Prop :=
  t.errSeq = s.errSeq ∧ t.errIll = s.errIll ∧ t.fcause = s.fcause ∧ t.fcmd = s.fcmd

/-- A result the host may trust (R96): `result_valid_o` = 1 and `err_o` = 0. -/
def trustedResult (s : State) : Option Word16 :=
  if resultValid s && !errLevel s then some s.result else none

/-- The invariant of R20 between FCAUSE and the flags, with what R82 says FCMD holds for each cause: 0x000 without a
fault, the word of an UPDATE or FINALIZE for SEQ_ERR, an illegal word for ILLEGAL_CMD. -/
abbrev faultRecordConsistent (s : State) : Prop :=
  (s.fcause = .noFault → s.errSeq = false ∧ s.errIll = false ∧ s.fcmd = 0x000#10)
  ∧ (s.fcause = .seqErr → s.errSeq = true ∧ isLegal s.fcmd = true ∧ s.fcmd ≠ encode .init)
  ∧ (s.fcause = .illegalCmd → s.errIll = true ∧ isLegal s.fcmd = false)

/-- In FINAL, RESULT is the final transform of the retained accumulator (R26, R65, R66). -/
abbrev resultMatchesAcc (s : State) : Prop := s.phase = .final → s.result = fin s.cfg s.acc

/-- Before the first INIT after reset the data registers hold their reset values (R26 row UNINIT). -/
abbrev uninitHoldsResetData (s : State) : Prop :=
  s.phase = .uninit → s.acc = 0x0000#16 ∧ s.result = 0x0000#16

/-- The invariant of the block: what every step keeps. -/
abbrev BlockInv (s : State) : Prop :=
  faultRecordConsistent s ∧ resultMatchesAcc s ∧ uninitHoldsResetData s

/-- A port-level state whose command in flight, if any, still has between 1 and PIPE_STAGES edges to go (R108). -/
abbrev PortInv (p : PortState) : Prop :=
  ∀ f, p.inFlight = some f → 1 ≤ f.edgesLeft ∧ f.edgesLeft ≤ p.block.cfg.pipeStages

end Sys2Proof.Machine
end

