-- ==== Sys2Proof/WellFormed.lean ====
section
/-! DEFINITION. When an instruction and a configuration are well formed. The checks on assembler operands, which are
plain numbers, stand with the assembler (Machine/Assembler.lean, `AsmLine.wellFormed`). -/

namespace Sys2Proof

/-- Every `Instr` is well formed: the one operand of the command set is the 8-bit DATA field, any value of which is
allowed (R42 "any", R43), and its type carries that bound; INIT and FINALIZE have no operand. -/
def Instr.wellFormed : Instr → Bool
  | .init => true
  | .update _ => true
  | .finalize => true

/-- N_INST is an integer at least 1 (R6); every 16-bit INIT_VALUE and XOR_OUT, either SWAP_OUT and every
PIPE_STAGES of at least 0 is admitted (R6, R7 "any other triple"). -/
def Cfg.wellFormed (c : Cfg) : Bool := decide (1 ≤ c.nInst)

end Sys2Proof
end

