-- ==== Sys2Proof/Certificates/Slice0/Obligations.lean ====
section
/-! DEFINITION. The statements for the provers. Each docstring names the rule of spec/ it formalises. A statement is
about every configuration unless it says otherwise: `s.cfg` is the parameter Cfg of 00_scope.md R6 (log 1). -/

open Sys2Proof Sys2Proof.Machine

/-! ### Encoding -/

/-- R47: the four branches of `decode`, the three values of `encode`, and that each undoes the other: on every
well-formed command, and on every legal word. -/
def Obligations.DecodeEncodeAgree : Prop :=
  (∀ w : CmdWord, w = 0x000#10 → decode w = .instr .init)
  ∧ (∀ w : CmdWord, opField w = 0b01#2 → decode w = .instr (.update (dataField w)))
  ∧ (∀ w : CmdWord, w = 0x200#10 → decode w = .instr .finalize)
  ∧ (∀ w : CmdWord, w ≠ 0x000#10 → opField w ≠ 0b01#2 → w ≠ 0x200#10 → ∃ why, decode w = .illegal why)
  ∧ encode .init = 0x000#10
  ∧ (∀ b : Byte, encode (.update b) = 0x100#10 + b.setWidth 10)
  ∧ encode .finalize = 0x200#10
  ∧ (∀ i : Instr, i.wellFormed = true → decode (encode i) = .instr i)
  ∧ (∀ (w : CmdWord) (i : Instr), decode w = .instr i → encode i = w)

/-- R42: each row's mask and match select exactly the words that decode to its command, no word is selected by two
rows, and 258 of the 1024 words are legal. -/
def Obligations.OpcodeMapSelectsCommands : Prop :=
  opcodeTable = [⟨"INIT", 0x3FF#10, 0x000#10⟩, ⟨"UPDATE", 0x300#10, 0x100#10⟩, ⟨"FINALIZE", 0x3FF#10, 0x200#10⟩]
  ∧ (∀ w : CmdWord, decode w = .instr .init ↔ w &&& 0x3FF#10 = 0x000#10)
  ∧ (∀ w : CmdWord, (∃ b, decode w = .instr (.update b)) ↔ w &&& 0x300#10 = 0x100#10)
  ∧ (∀ w : CmdWord, decode w = .instr .finalize ↔ w &&& 0x3FF#10 = 0x200#10)
  ∧ (∀ w : CmdWord, (opcodeTable.filter fun r => r.selects w).length ≤ 1)
  ∧ ((List.range 1024).filter fun n => isLegal (BitVec.ofNat 10 n)).length = 258

/-- R44: the three classes of illegal words, their sizes, and what accepting one does in any state: the fault action
for ILLEGAL_CMD with that word, no other effect. -/
def Obligations.IllegalWordsRaiseIllegalCmd : Prop :=
  (∀ w : CmdWord, (∃ why, decode w = .illegal why) ↔
    (opField w = 0b11#2 ∨ (opField w = 0b00#2 ∧ dataField w ≠ 0x00#8) ∨ (opField w = 0b10#2 ∧ dataField w ≠ 0x00#8)))
  ∧ ((List.range 1024).filter fun n => decide (decode (BitVec.ofNat 10 n) = .illegal .opUnassigned)).length = 256
  ∧ ((List.range 1024).filter fun n => decide (decode (BitVec.ofNat 10 n) = .illegal .initDataNonzero)).length = 255
  ∧ ((List.range 1024).filter fun n => decide (decode (BitVec.ofNat 10 n) = .illegal .finalizeDataNonzero)).length = 255
  ∧ (∀ (s : State) (w : CmdWord) (why : IllegalWord) (rest : List Input),
      s.inputs = .cmd w :: rest → decode w = .illegal why →
      step s = .next { s with
        inputs := rest
        errIll := true
        fcause := if s.fcause = .noFault then .illegalCmd else s.fcause
        fcmd := if s.fcause = .noFault then w else s.fcmd })

/-- Words of 95_test_vectors.md V12, written out bit by bit from the encodings of R42. -/
def Obligations.WrittenOutWordsDecode : Prop :=
  decode 0b0000000000#10 = .instr .init
  ∧ decode 0b0100110001#10 = .instr (.update 0x31#8)
  ∧ decode 0b0110000000#10 = .instr (.update 0x80#8)
  ∧ decode 0b1000000000#10 = .instr .finalize
  ∧ decode 0b0000000001#10 = .illegal .initDataNonzero
  ∧ decode 0b1011111111#10 = .illegal .finalizeDataNonzero
  ∧ decode 0b1110100101#10 = .illegal .opUnassigned

/-! ### The commands -/

/-- R51: INIT in every phase, with its encoding, its (absent) TABLE access and its worked example. -/
def Obligations.InitStartsChecksum : Prop :=
  encode .init = 0x000#10
  ∧ (∀ s : State, exec .init s = .next { s with acc := s.cfg.initValue, phase := .accum })
  ∧ (∀ s : State, faultOf 0x000#10 s = .noFault ∧ tableReads .init s = [])
  ∧ exec .init (State.resetWith Cfg.ccittFalse) =
      .next { State.resetWith Cfg.ccittFalse with acc := 0xFFFF#16, phase := .accum }
  ∧ exec .init (State.resetWith Cfg.xmodem) =
      .next { State.resetWith Cfg.xmodem with acc := 0x0000#16, phase := .accum }

/-- R52: INIT is in sequence in every phase; what the old ACC and PHASE were has no effect on anything later, and two
INITs in a row equal one. -/
def Obligations.InitRestartsInEveryPhase : Prop :=
  (∀ s : State, ∃ t, exec .init s = .next t ∧ t.acc = s.cfg.initValue ∧ t.phase = .accum ∧ t.result = s.result
    ∧ sameFaultRecord s t)
  ∧ (∀ (s : State) (a : Word16) (p : Phase) (l : List Input),
      runInputs { s with acc := a, phase := p } (Input.ofInstr .init :: l) = runInputs s (Input.ofInstr .init :: l))
  ∧ (∀ (s : State) (l : List Input),
      runInputs s (Input.ofInstr .init :: Input.ofInstr .init :: l) = runInputs s (Input.ofInstr .init :: l))

/-- R53: INIT writes the same value at every execution on a block, whatever the other registers hold and whatever inputs
came before. -/
def Obligations.InitValueIsConstant : Prop :=
  ∀ (s : State) (before before' : List Input),
    ∃ t t', exec .init (runInputs s before) = .next t ∧ exec .init (runInputs s before') = .next t'
      ∧ t.acc = s.cfg.initValue ∧ t'.acc = t.acc

/-- R54: UPDATE in sequence and out of sequence, for every byte and every state, with its encoding, its one TABLE read,
and the corner cases and worked example of the rule. -/
def Obligations.UpdateFoldsByte : Prop :=
  (∀ b : Byte, encode (.update b) = 0x100#10 + b.setWidth 10)
  ∧ (∀ (s : State) (b : Byte), s.phase = .accum → exec (.update b) s = .next { s with acc := reduce s.acc b })
  ∧ (∀ (s : State) (b : Byte), s.phase ≠ .accum →
      exec (.update b) s = .next { s with
        errSeq := true
        fcause := if s.fcause = .noFault then .seqErr else s.fcause
        fcmd := if s.fcause = .noFault then 0x100#10 + b.setWidth 10 else s.fcmd })
  ∧ (∀ (s : State) (b : Byte), s.phase = .accum → tableReads (.update b) s = [hi s.acc ^^^ b])
  ∧ reduce 0xFFFF#16 0x00#8 = 0xE1F0#16
  ∧ reduce 0x0000#16 0x00#8 = 0x0000#16
  ∧ (∀ s : State, s.phase = .accum → s.acc = 0xFFFF#16 →
      exec (.update 0x31#8) s = .next { s with acc := 0xC782#16 })

/-- R63: FINALIZE in sequence and out of sequence, with its encoding, its (absent) TABLE access and its worked
example. -/
def Obligations.FinalizeDeliversResult : Prop :=
  encode .finalize = 0x200#10
  ∧ (∀ s : State, s.phase = .accum → exec .finalize s = .next { s with result := fin s.cfg s.acc, phase := .final })
  ∧ (∀ s : State, s.phase ≠ .accum →
      exec .finalize s = .next { s with
        errSeq := true
        fcause := if s.fcause = .noFault then .seqErr else s.fcause
        fcmd := if s.fcause = .noFault then 0x200#10 else s.fcmd })
  ∧ (∀ s : State, tableReads .finalize s = [])
  ∧ (∀ s : State, s.cfg = Cfg.ccittFalse → s.phase = .accum → s.acc = 0x29B1#16 →
      exec .finalize s = .next { s with result := 0x29B1#16, phase := .final })

/-- R65: FINALIZE keeps ACC, and in FINAL both ACC and RESULT stay as they are under any command words but INIT. -/
def Obligations.FinalStateHoldsUntilInit : Prop :=
  (∀ s t : State, exec .finalize s = .next t → t.acc = s.acc)
  ∧ (∀ s t : State, s.phase = .accum → exec .finalize s = .next t →
      (outputs t).acc = s.acc ∧ (outputs t).result = fin s.cfg s.acc)
  ∧ (∀ (s : State) (l : List Input), s.phase = .final → (∀ inp ∈ l, ∃ w, inp = .cmd w ∧ w ≠ 0x000#10) →
      (runInputs s l).acc = s.acc ∧ (runInputs s l).result = s.result ∧ (runInputs s l).phase = .final)

/-- R66: FINALIZE in UNINIT and a second FINALIZE raise SEQ_ERR and leave RESULT; where the block's invariant holds,
RESULT already is the value a second FINALIZE would produce. -/
def Obligations.FinalizeOutOfSequenceKeepsResult : Prop :=
  ∀ s : State, s.phase = .uninit ∨ s.phase = .final →
    ∃ t, exec .finalize s = .next t ∧ t.errSeq = true ∧ t.result = s.result ∧ t.acc = s.acc ∧ t.phase = s.phase
      ∧ (s.phase = .final → resultMatchesAcc s → t.result = fin s.cfg s.acc)

/-- R21, 40 to 42: the frame of the three commands. Whatever the state, a command changes at most: INIT, ACC and PHASE;
UPDATE, ACC (in sequence) or the fault record (out of sequence); FINALIZE, RESULT and PHASE (in sequence) or the fault
record (out of sequence). A faulting command sets ERR_SEQ, never ERR_ILL, and writes FCAUSE and FCMD only if no fault
was recorded. No command writes Cfg or what the host has still to present; there is no memory to write (R28). -/
def Obligations.CommandFrames : Prop :=
  ∀ (i : Instr) (s t : State), exec i s = .next t →
    t.cfg = s.cfg ∧ t.inputs = s.inputs ∧ t.errIll = s.errIll
    ∧ (i = .init → t.result = s.result ∧ sameFaultRecord s t)
    ∧ (∀ b, i = .update b → t.phase = s.phase ∧ t.result = s.result)
    ∧ (i = .finalize → t.acc = s.acc)
    ∧ (s.phase = .accum → sameFaultRecord s t)
    ∧ (i ≠ .init → s.phase ≠ .accum → t.acc = s.acc ∧ t.phase = s.phase ∧ t.result = s.result ∧ t.errSeq = true
        ∧ (s.fcause ≠ .noFault → t.fcause = s.fcause ∧ t.fcmd = s.fcmd))

/-! ### The datapath -/

/-- R31, R32, R76: every entry is eight bit-serial steps from the byte in the high half, equals `reduce_bits(0, i)`, and
stands at its place in the listing of 256 entries. -/
def Obligations.TableMatchesBitSerial : Prop :=
  (∀ i : Byte, memRead i = bitStages 8 (pair i 0x00#8))
  ∧ (∀ i : Byte, memRead i = reduceBits 0x0000#16 i)
  ∧ tableListing.length = 256
  ∧ (∀ i : Byte, tableListing[i.toNat]? = some (memRead i))

/-- R33: zero entry, POLY entry, linearity, the eight basis entries, and that the entries are pairwise distinct. (That
they do not depend on the profile is the type of `memRead`.) -/
def Obligations.TableProperties : Prop :=
  memRead 0x00#8 = 0x0000#16 ∧ memRead 0x01#8 = poly ∧ poly = 0x1021#16
  ∧ (∀ i j : Byte, memRead (i ^^^ j) = memRead i ^^^ memRead j)
  ∧ memRead 0x02#8 = 0x2042#16 ∧ memRead 0x04#8 = 0x4084#16 ∧ memRead 0x08#8 = 0x8108#16
  ∧ memRead 0x10#8 = 0x1231#16 ∧ memRead 0x20#8 = 0x2462#16 ∧ memRead 0x40#8 = 0x48C4#16 ∧ memRead 0x80#8 = 0x9188#16
  ∧ (∀ i j : Byte, memRead i = memRead j → i = j)

/-- R55, R56: the formula, the chain of the stages P1, P2, P3, and the two output bytes. -/
def Obligations.PipelineStagesComputeReduce : Prop :=
  ∀ (a : Word16) (b : Byte),
    reduce a b = (a <<< 8) ^^^ memRead (hi a ^^^ b)
    ∧ reduce a b = pair (lo a) 0x00#8 ^^^ memRead (hi a ^^^ b)
    ∧ stageIndex a b = hi a ^^^ b
    ∧ (∀ idx, stageLookup idx = memRead idx)
    ∧ (∀ t, stageCombine (lo a) t = pair (lo a) 0x00#8 ^^^ t)
    ∧ polyReducePipeline a b = stageCombine (lo a) (stageLookup (stageIndex a b))
    ∧ polyReducePipeline a b = reduce a b
    ∧ hi (reduce a b) = lo a ^^^ hi (memRead (hi a ^^^ b))
    ∧ lo (reduce a b) = lo (memRead (hi a ^^^ b))

/-- R57: the bit-serial form, one stage as wires, and its tie to the table. -/
def Obligations.BitStageWires : Prop :=
  (∀ (a : Word16) (b : Byte), reduceBits a b = bitStages 8 (a ^^^ pair b 0x00#8))
  ∧ (∀ (n : Nat) (r : Word16), bitStages 0 r = r ∧ bitStages (n + 1) r = bitStages n (bitStage r))
  ∧ (∀ r : Word16, bitStage r = if r.getLsbD 15 then (r <<< 1) ^^^ 0x1021#16 else r <<< 1)
  ∧ (∀ r : Word16,
      (bitStage r).getLsbD 0 = r.getLsbD 15
      ∧ (bitStage r).getLsbD 5 = Bool.xor (r.getLsbD 4) (r.getLsbD 15)
      ∧ (bitStage r).getLsbD 12 = Bool.xor (r.getLsbD 11) (r.getLsbD 15)
      ∧ ∀ k, 1 ≤ k → k ≤ 15 → k ≠ 5 → k ≠ 12 → (bitStage r).getLsbD k = r.getLsbD (k - 1))
  ∧ (∀ i : Byte, genEntry i = reduceBits 0x0000#16 i)

/-- R58: the table form and the bit-serial form are the same function of every accumulator and byte. -/
def Obligations.ReduceEqualsBitSerial : Prop :=
  ∀ (a : Word16) (b : Byte), reduce a b = reduceBits a b

/-- R61: `reduce` is linear in the pair, injective in the byte, and a bijection in the accumulator. -/
def Obligations.ReduceIsLinearAndBijective : Prop :=
  (∀ (a a' : Word16) (b b' : Byte), reduce (a ^^^ a') (b ^^^ b') = reduce a b ^^^ reduce a' b')
  ∧ reduce 0x0000#16 0x00#8 = 0x0000#16
  ∧ (∀ (a : Word16) (b b' : Byte), reduce a b = reduce a b' → b = b')
  ∧ (∀ b : Byte, Function.Bijective fun a : Word16 => reduce a b)

/-- R36, R62: which TABLE entries a command depends on. Replacing the table changes nothing as long as the entries the
command reads are the same; that is one entry, at `ACC[15:8] ^ DATA`, for UPDATE in sequence, and none for INIT,
FINALIZE and a faulting command. UPDATE in sequence does depend on its entry: two tables that differ there give
different outcomes. That a read is stated as dependence on a table parameter is DEDUCED (log 15). -/
def Obligations.CommandsReadOneEntryAtMost : Prop :=
  (∀ (i : Instr) (s : State), execWithRom memRead i s = exec i s)
  ∧ (∀ (rom rom' : Byte → Word16) (i : Instr) (s : State),
      (∀ idx ∈ tableReads i s, rom idx = rom' idx) → execWithRom rom i s = execWithRom rom' i s)
  ∧ (∀ (s : State) (b : Byte), s.phase = .accum → tableReads (.update b) s = [tableIndex s.acc b])
  ∧ (∀ (rom rom' : Byte → Word16) (s : State) (b : Byte), s.phase = .accum →
      rom (tableIndex s.acc b) ≠ rom' (tableIndex s.acc b) →
      execWithRom rom (.update b) s ≠ execWithRom rom' (.update b) s)
  ∧ (∀ (s : State) (b : Byte), s.phase ≠ .accum → tableReads (.update b) s = [])
  ∧ (∀ s : State, tableReads .init s = [] ∧ tableReads .finalize s = [])

/-- R64: `fin` for every configuration, its inverse, and the worked example that fixes the order. -/
def Obligations.FinTransform : Prop :=
  (∀ (c : Cfg) (a : Word16), c.swapOut = false → fin c a = a ^^^ c.xorOut)
  ∧ (∀ (c : Cfg) (a : Word16), c.swapOut = true → fin c a = pair (lo (a ^^^ c.xorOut)) (hi (a ^^^ c.xorOut)))
  ∧ (∀ (c : Cfg) (a : Word16), c.xorOut = 0x0000#16 → c.swapOut = false → fin c a = a)
  ∧ (∀ (c : Cfg) (a : Word16), c.xorOut = 0xFFFF#16 → c.swapOut = false → fin c a = ~~~a)
  ∧ (∀ (c : Cfg) (a : Word16), c.xorOut = 0x0000#16 → c.swapOut = true → fin c a = bswap16 a)
  ∧ (∀ (c : Cfg) (a : Word16), c.xorOut = 0x0000#16 ∨ c.xorOut = 0xFFFF#16 → c.swapOut = true →
      fin c a = bswap16 a ^^^ c.xorOut)
  ∧ (∀ c : Cfg, Function.Bijective (fin c))
  ∧ (∀ (c : Cfg) (a : Word16), finInv c (fin c a) = a)
  ∧ (∀ (c : Cfg) (r : Word16), finInv c r = (if c.swapOut then bswap16 r else r) ^^^ c.xorOut)
  ∧ (∀ c : Cfg, c.xorOut = 0x00FF#16 → c.swapOut = true → fin c 0x29B1#16 = 0x4E29#16)

/-! ### Faults -/

/-- R83, R84 with R92's first sentence: exactly which words fault in which state, for which cause. -/
def Obligations.WhichWordsFault : Prop :=
  ∀ (w : CmdWord) (s : State),
    (faultOf w s = .illegalCmd ↔ ∃ why, decode w = .illegal why)
    ∧ (faultOf w s = .seqErr ↔
        ((∃ b, decode w = .instr (.update b)) ∨ decode w = .instr .finalize) ∧ (s.phase = .uninit ∨ s.phase = .final))
    ∧ (faultOf w s = .noFault →
        ∃ i t, decode w = .instr i ∧ exec i s = .next t ∧ sameFaultRecord s t)
    ∧ (∀ cause, faultOf w s = cause → cause ≠ .noFault → acceptWord w s = .next (takeFault cause w s))

/-- R86: the whole fault action, as one equation for each cause and any word. -/
def Obligations.FaultActionRecordsFirstFault : Prop :=
  ∀ (s : State) (w : CmdWord),
    takeFault .seqErr w s = { s with
      errSeq := true
      fcause := if s.fcause = .noFault then .seqErr else s.fcause
      fcmd := if s.fcause = .noFault then w else s.fcmd }
    ∧ takeFault .illegalCmd w s = { s with
      errIll := true
      fcause := if s.fcause = .noFault then .illegalCmd else s.fcause
      fcmd := if s.fcause = .noFault then w else s.fcmd }

/-- R87: a faulting command leaves ACC, PHASE and RESULT exactly as the previous input left them, and has no effect but
the fault action; dropping the word from any later run changes at most the fault record. -/
def Obligations.FaultingCommandIsDropped : Prop :=
  ∀ (s : State) (w : CmdWord), faultOf w s ≠ .noFault →
    after s (.cmd w) = takeFault (faultOf w s) w s
    ∧ (∀ l : List Input,
        (runInputs s (.cmd w :: l)).acc = (runInputs s l).acc
        ∧ (runInputs s (.cmd w :: l)).phase = (runInputs s l).phase
        ∧ (runInputs s (.cmd w :: l)).result = (runInputs s l).result)

/-- R85, R100: priorities. The decode check comes first: an illegal word raises ILLEGAL_CMD whatever the phase and never
SEQ_ERR; a legal word can raise only SEQ_ERR. Reset wins over a command presented in the same cycle: `cmd_ready_o` is 0,
the command is not accepted, and Reset is applied. -/
def Obligations.PriorityOfDecodeCheckAndReset : Prop :=
  (∀ (s : State) (w : CmdWord) (why : IllegalWord), decode w = .illegal why →
    (after s (.cmd w)).errIll = true ∧ (after s (.cmd w)).errSeq = s.errSeq)
  ∧ (∀ (s : State) (w : CmdWord) (i : Instr), decode w = .instr i → (after s (.cmd w)).errIll = s.errIll)
  ∧ (∀ (p : PortState) (pins : Pins), pins.rst = true →
      p.cmdReady pins.rst = false ∧ p.accepted pins = none ∧ p.inputOf pins = [.reset]
      ∧ (p.edge pins).block = after p.block .reset)

/-- R89: a second and later fault sets its cause's flag and leaves the first record, with the example of the rule. -/
def Obligations.RepeatedFaultKeepsFirstRecord : Prop :=
  (∀ (s : State) (w : CmdWord), s.fcause ≠ .noFault →
    takeFault .seqErr w s = { s with errSeq := true } ∧ takeFault .illegalCmd w s = { s with errIll := true })
  ∧ runInputs State.reset [.cmd 0x200#10, .cmd 0x300#10] =
      { State.reset with errSeq := true, errIll := true, fcause := .seqErr, fcmd := 0x200#10 }

/-- R18, R91: the flags are sticky under every command word, the record is kept once made, a word that does not fault
leaves all of it, each flag is set by its own cause, Reset clears it all, and what the record holds has no influence on
ACC, PHASE and RESULT, now or later. -/
def Obligations.OnlyResetClearsErrors : Prop :=
  (∀ (s : State) (w : CmdWord),
    (s.errSeq = true → (after s (.cmd w)).errSeq = true)
    ∧ (s.errIll = true → (after s (.cmd w)).errIll = true)
    ∧ (s.fcause ≠ .noFault → (after s (.cmd w)).fcause = s.fcause ∧ (after s (.cmd w)).fcmd = s.fcmd)
    ∧ (faultOf w s = .noFault → sameFaultRecord s (after s (.cmd w)))
    ∧ (faultOf w s = .seqErr → (after s (.cmd w)).errSeq = true ∧ (after s (.cmd w)).errIll = s.errIll)
    ∧ (faultOf w s = .illegalCmd → (after s (.cmd w)).errIll = true ∧ (after s (.cmd w)).errSeq = s.errSeq))
  ∧ (∀ s : State, (after s .reset).errSeq = false ∧ (after s .reset).errIll = false
      ∧ (after s .reset).fcause = .noFault ∧ (after s .reset).fcmd = 0x000#10)
  ∧ (∀ (s : State) (l : List Input) (es ei : Bool) (c : FaultCause) (w : CmdWord),
      (runInputs { s with errSeq := es, errIll := ei, fcause := c, fcmd := w } l).acc = (runInputs s l).acc
      ∧ (runInputs { s with errSeq := es, errIll := ei, fcause := c, fcmd := w } l).phase = (runInputs s l).phase
      ∧ (runInputs { s with errSeq := es, errIll := ei, fcause := c, fcmd := w } l).result = (runInputs s l).result)

/-- R92: no word of a legal stream faults. UPDATE and FINALIZE in ACCUM and INIT anywhere run without fault, and any
concatenation of streams `INIT, UPD*, FIN` leaves the fault record of any starting state. -/
def Obligations.InSequenceStreamsRaiseNoFault : Prop :=
  (∀ s : State, s.phase = .accum →
    (∀ b : Byte, faultOf (encode (.update b)) s = .noFault) ∧ faultOf (encode .finalize) s = .noFault)
  ∧ (∀ s : State, faultOf (encode .init) s = .noFault)
  ∧ (∀ (s : State) (ms : List (List Byte)), sameFaultRecord s (runInputs s (ms.flatMap checksumStream)))

/-- R88: after a fault the block goes on; INIT starts a clean checksum, and the fault record persists through it. -/
def Obligations.InitRecoversAfterFault : Prop :=
  ∀ (s : State) (w : CmdWord) (m : List Byte), faultOf w s ≠ .noFault →
    (runInputs s (.cmd w :: checksumStream m)).result = crc s.cfg m
    ∧ (runInputs s (.cmd w :: checksumStream m)).phase = .final
    ∧ sameFaultRecord (after s (.cmd w)) (runInputs s (.cmd w :: checksumStream m))
    ∧ errLevel (runInputs s (.cmd w :: checksumStream m)) = true

/-- R88, R96: a result is trusted exactly when no fault is recorded. From a fault-free state a checksum stream ends
with the trusted checksum; once a fault is recorded no commands make a result trusted again. -/
def Obligations.TrustedResultMeansNoFault : Prop :=
  (∀ (s : State) (m : List Byte), faultFree s = true →
    trustedResult (runInputs s (checksumStream m)) = some (crc s.cfg m))
  ∧ (∀ (s : State) (l : List Input), faultFree s = false → (∀ inp ∈ l, inp ≠ .reset) →
      trustedResult (runInputs s l) = none)

/-! ### Reset, the step, and the invariant -/

/-- R27: the reset value of every register, on a block built with any Cfg. -/
def Obligations.ResetValues : Prop :=
  ∀ c : Cfg, (State.resetWith c).acc = 0x0000#16 ∧ (State.resetWith c).phase = .uninit
    ∧ (State.resetWith c).result = 0x0000#16 ∧ (State.resetWith c).errSeq = false
    ∧ (State.resetWith c).errIll = false ∧ (State.resetWith c).fcause = .noFault
    ∧ (State.resetWith c).fcmd = 0x000#10 ∧ (State.resetWith c).cfg = c
    ∧ (State.resetWith c).phase.toBits = 0b00#2 ∧ (State.resetWith c).fcause.toBits = 0#2
    ∧ State.reset = State.resetWith Cfg.ccittFalse

/-- R97: Reset gives the reset state from every state, any number of times; at the port it is applied at every edge with
`rst_i` = 1; and no command takes the block back to UNINIT. -/
def Obligations.ResetInputGivesResetState : Prop :=
  (∀ (s : State) (rest : List Input), s.inputs = .reset :: rest →
    step s = .next { State.resetWith s.cfg with inputs := rest })
  ∧ (∀ s : State, after (after s .reset) .reset = after s .reset)
  ∧ (∀ (p : PortState) (pins : Pins), pins.rst = true → (p.edge pins).block = after p.block .reset)
  ∧ (∀ (s : State) (w : CmdWord), (after s (.cmd w)).phase = .uninit → s.phase = .uninit)

/-- R98: what Reset writes and does not touch, at both levels: all seven registers, not Cfg; the pipeline is emptied, so
a command in flight has no effect after it. -/
def Obligations.ResetTouchesRegistersOnly : Prop :=
  (∀ s : State, after s .reset =
    { cfg := s.cfg, acc := 0x0000#16, phase := .uninit, result := 0x0000#16, errSeq := false, errIll := false,
      fcause := .noFault, fcmd := 0x000#10, inputs := s.inputs })
  ∧ (∀ (p : PortState) (pins : Pins), pins.rst = true →
      (p.edge pins).inFlight = none ∧ (p.edge pins).settled = after p.settled .reset)
  ∧ (∀ (s : State) (l : List Input), (∀ inp ∈ l, inp ≠ .reset) → errLevel s = true → errLevel (runInputs s l) = true)

/-- R68 with R94 and R45: a step runs the next input. A word that decodes to a command runs `exec` of it on the state
whose remaining inputs are the rest; an illegal word and Reset have their own effect; with nothing presented the block
holds its state (that last clause is DEDUCED, log 3). -/
def Obligations.StepRunsNextInput : Prop :=
  (∀ (s : State) (w : CmdWord) (i : Instr) (rest : List Input),
    s.inputs = .cmd w :: rest → decode w = .instr i → step s = exec i { s with inputs := rest })
  ∧ (∀ (s : State) (w : CmdWord) (why : IllegalWord) (rest : List Input),
    s.inputs = .cmd w :: rest → decode w = .illegal why →
      step s = .next (takeFault .illegalCmd w { s with inputs := rest }))
  ∧ (∀ (s : State) (rest : List Input), s.inputs = .reset :: rest →
      step s = .next (applyReset { s with inputs := rest }))
  ∧ (∀ s : State, s.inputs = [] → step s = .next s)

/-- The words of the opcode table run where the model says an instruction is placed (log 2, log 11): the very next step
is `exec` of the placed command, on the state it was placed in. -/
def Obligations.PlacedWordRunsNext : Prop :=
  ∀ (s : State) (i : Instr),
    decodeTableWord 16 (encode i).toNat = some i
    ∧ step (s.withFetchWord 16 (encode i).toNat) = exec i s

/-- R68: the step function as the rule writes it, its run as a left fold, and that the machine's own step, taken once
per presented input, performs that run and never stops. -/
def Obligations.StepRefinesCommandLevel : Prop :=
  (∀ s : State, after s .reset = { State.resetWith s.cfg with inputs := s.inputs })
  ∧ (∀ (s : State) (w : CmdWord) (why : IllegalWord), decode w = .illegal why →
      after s (.cmd w) = takeFault .illegalCmd w s)
  ∧ (∀ (s : State) (w : CmdWord), decode w = .instr .init →
      after s (.cmd w) = { s with acc := s.cfg.initValue, phase := .accum })
  ∧ (∀ (s : State) (w : CmdWord) (b : Byte), decode w = .instr (.update b) →
      after s (.cmd w) = if s.phase = .accum then { s with acc := reduce s.acc b } else takeFault .seqErr w s)
  ∧ (∀ (s : State) (w : CmdWord), decode w = .instr .finalize →
      after s (.cmd w) =
        if s.phase = .accum then { s with result := fin s.cfg s.acc, phase := .final } else takeFault .seqErr w s)
  ∧ (∀ s : State, runInputs s [] = s)
  ∧ (∀ (s : State) (inp : Input) (rest : List Input), runInputs s (inp :: rest) = runInputs (after s inp) rest)
  ∧ (∀ s : State, core.run s.inputs.length s = .next (runInputs { s with inputs := [] } s.inputs))

/-- R68, R81: every state has a next state; no step faults or refuses. -/
def Obligations.EveryStepAnswersNext : Prop :=
  ∀ s : State, ∃ t, step s = .next t ∧ t.cfg = s.cfg ∧ t.inputs = s.inputs.tail

/-- R77: the complete transition table of PHASE, with what else happens in each cell. -/
def Obligations.PhaseTransitionTable : Prop :=
  (∀ s : State, after s .reset = { State.resetWith s.cfg with inputs := s.inputs })
  ∧ (∀ s : State, after s (.cmd 0x000#10) = { s with acc := s.cfg.initValue, phase := .accum })
  ∧ (∀ (s : State) (b : Byte), s.phase = .uninit → after s (.cmd (encode (.update b))) =
      takeFault .seqErr (encode (.update b)) s ∧ (after s (.cmd (encode (.update b)))).phase = .uninit)
  ∧ (∀ (s : State) (b : Byte), s.phase = .accum → after s (.cmd (encode (.update b))) =
      { s with acc := reduce s.acc b })
  ∧ (∀ (s : State) (b : Byte), s.phase = .final → after s (.cmd (encode (.update b))) =
      takeFault .seqErr (encode (.update b)) s ∧ (after s (.cmd (encode (.update b)))).phase = .final)
  ∧ (∀ s : State, s.phase = .uninit → after s (.cmd 0x200#10) = takeFault .seqErr 0x200#10 s
      ∧ (after s (.cmd 0x200#10)).phase = .uninit)
  ∧ (∀ s : State, s.phase = .accum → after s (.cmd 0x200#10) = { s with result := fin s.cfg s.acc, phase := .final })
  ∧ (∀ s : State, s.phase = .final → after s (.cmd 0x200#10) = takeFault .seqErr 0x200#10 s
      ∧ (after s (.cmd 0x200#10)).phase = .final)
  ∧ (∀ (s : State) (w : CmdWord) (why : IllegalWord), decode w = .illegal why →
      after s (.cmd w) = takeFault .illegalCmd w s ∧ (after s (.cmd w)).phase = s.phase)
  ∧ (∀ (s : State) (cause : FaultCause) (w : CmdWord), (takeFault cause w s).phase = s.phase
      ∧ (takeFault cause w s).acc = s.acc ∧ (takeFault cause w s).result = s.result)

/-- R20, R82, R26: the block's invariant holds in the reset state of every configuration. -/
def Obligations.BlockInvAtReset : Prop :=
  ∀ c : Cfg, BlockInv (State.resetWith c)

/-- R20, R82, R26, R66: every step keeps the block's invariant, from any state that has it: FCAUSE, the flags and FCMD
agree; in FINAL, RESULT is `fin(ACC)`; in UNINIT the data registers hold their reset values. -/
def Obligations.EveryStepKeepsBlockInv : Prop :=
  ∀ s t : State, BlockInv s → step s = .next t → BlockInv t

/-- R19, R20: the fields of the views STATUS and FINFO, and that under the invariant `err_o` says a cause is recorded. -/
def Obligations.StatusAndFinfoViews : Prop :=
  ∀ s : State,
    (statusView s).extractLsb' 0 2 = s.phase.toBits
    ∧ (statusView s).getLsbD 2 = s.errSeq
    ∧ (statusView s).getLsbD 3 = s.errIll
    ∧ (finfoView s).extractLsb' 0 10 = s.fcmd
    ∧ (finfoView s).extractLsb' 10 2 = s.fcause.toBits
    ∧ s.phase.toBits ≠ 0b11#2
    ∧ s.fcause.toBits ≠ 3#2
    ∧ (faultRecordConsistent s → (errLevel s = true ↔ s.fcause.toBits ≠ 0#2))

/-! ### Streams -/

/-- R69: the stream `INIT, UPD b1, ..., UPD bn, FIN` from any state, for every message and every Cfg. -/
def Obligations.ChecksumStreamComputesCrc : Prop :=
  ∀ (s : State) (m : List Byte),
    accOf s.cfg m = m.foldl reduce s.cfg.initValue
    ∧ crc s.cfg m = fin s.cfg (accOf s.cfg m)
    ∧ runInputs s (checksumStream m) = { s with acc := accOf s.cfg m, result := crc s.cfg m, phase := .final }

/-- R71: however the bytes of a message are split into source-level `update` calls, the machine delivers the checksum of
the joined bytes; the fold law of the rule, as what UPDATEs do to ACC from any accumulator; idle edges (`rst_i` = 0,
`cmd_valid_i` = 0) between the bursts change nothing; and what does change the result: an INIT between the bursts restarts,
and a FIN ends the checksum, so that later UPDATEs fault and leave ACC and RESULT. -/
def Obligations.SplittingMessagesChangesNothing : Prop :=
  (∀ (s : State) (chunks : List (List Byte)),
    runInputs s (Input.ofInstr .init :: (chunks.flatMap updates ++ [Input.ofInstr .finalize])) =
      { s with acc := accOf s.cfg chunks.flatten, result := crc s.cfg chunks.flatten, phase := .final })
  ∧ (∀ (s : State) (a b : List Byte), s.phase = .accum →
      runInputs s (updates (a ++ b)) = { s with acc := (a ++ b).foldl reduce s.acc }
      ∧ runInputs s (updates a ++ updates b) = { s with acc := b.foldl reduce (a.foldl reduce s.acc) }
      ∧ (a ++ b).foldl reduce s.acc = b.foldl reduce (a.foldl reduce s.acc))
  ∧ (∀ (p : PortState) (idles : List Pins), (∀ pins ∈ idles, pins.rst = false ∧ pins.cmdValid = false) →
      (p.run idles).settled = p.settled ∧ p.acceptedInputs idles = [])
  ∧ (∀ (p : PortState) (before idles later : List Pins), (∀ pins ∈ idles, pins.rst = false ∧ pins.cmdValid = false) →
      p.acceptedInputs (before ++ idles ++ later) = p.acceptedInputs (before ++ later) →
      (p.run (before ++ idles ++ later)).settled = (p.run (before ++ later)).settled)
  ∧ (∀ (p : PortState) (before idles later : List Pins), (∀ pins ∈ idles, pins.rst = false ∧ pins.cmdValid = false) →
      (p.run before).inFlight = none →
      p.run (before ++ idles ++ later) = p.run (before ++ later)
      ∧ p.acceptedInputs (before ++ idles ++ later) = p.acceptedInputs (before ++ later))
  ∧ (∀ (s : State) (a b : List Byte),
      runInputs s (Input.ofInstr .init :: (updates a ++ checksumStream b)) = runInputs s (checksumStream b))
  ∧ (∀ (s : State) (a b : List Byte),
      (runInputs s (checksumStream a ++ updates b)).acc = accOf s.cfg a
      ∧ (runInputs s (checksumStream a ++ updates b)).result = crc s.cfg a
      ∧ (b ≠ [] → (runInputs s (checksumStream a ++ updates b)).errSeq = true))

/-- R67, R72: the empty message, from any state, with the values of R67. -/
def Obligations.EmptyMessageChecksum : Prop :=
  (∀ c : Cfg, crc c [] = fin c c.initValue)
  ∧ (∀ s : State, (runInputs s [Input.ofInstr .init, Input.ofInstr .finalize]).result = fin s.cfg s.cfg.initValue)
  ∧ fin Cfg.ccittFalse Cfg.ccittFalse.initValue = 0xFFFF#16
  ∧ fin Cfg.xmodem Cfg.xmodem.initValue = 0x0000#16
  ∧ (∀ c : Cfg, c.initValue = 0xFFFF#16 → c.xorOut = 0xFFFF#16 → c.swapOut = false → crc c [] = 0x0000#16)
  ∧ (∀ c : Cfg, c.initValue = 0x0000#16 → c.xorOut = 0xFFFF#16 → c.swapOut = false → crc c [] = 0xFFFF#16)

/-- R73: the two check values of "123456789" (95_test_vectors.md V1, V2). -/
def Obligations.ConformanceVectors : Prop :=
  crc Cfg.ccittFalse [0x31#8, 0x32#8, 0x33#8, 0x34#8, 0x35#8, 0x36#8, 0x37#8, 0x38#8, 0x39#8] = 0x29B1#16
  ∧ crc Cfg.xmodem [0x31#8, 0x32#8, 0x33#8, 0x34#8, 0x35#8, 0x36#8, 0x37#8, 0x38#8, 0x39#8] = 0x31C3#16

/-- R74: the result depends on the message and the three parameters of the variant only: not on the starting state of the
block, on the error flags, on the number of blocks or on PIPE_STAGES. -/
def Obligations.ResultDependsOnMessageAndVariantOnly : Prop :=
  ∀ (s s' : State) (m : List Byte),
    s.cfg.initValue = s'.cfg.initValue → s.cfg.xorOut = s'.cfg.xorOut → s.cfg.swapOut = s'.cfg.swapOut →
      (runInputs s (checksumStream m)).result = (runInputs s' (checksumStream m)).result
      ∧ (runInputs s (checksumStream m)).acc = (runInputs s' (checksumStream m)).acc
      ∧ (runInputs s (checksumStream m)).result = crc s.cfg m

/-- R75: two messages of the same length that differ in exactly one byte have different checksums, under every Cfg. -/
def Obligations.SingleByteChangeChangesChecksum : Prop :=
  ∀ (c : Cfg) (p q : List Byte) (b b' : Byte), b ≠ b' → crc c (p ++ b :: q) ≠ crc c (p ++ b' :: q)

/-- R79: a message followed by its own checksum, high byte first, brings the accumulator to zero. -/
def Obligations.ResidueIsZero : Prop :=
  ∀ (c : Cfg) (m : List Byte), c.xorOut = 0x0000#16 → c.swapOut = false →
    accOf c (m ++ [hi (crc c m), lo (crc c m)]) = 0x0000#16

/-- R80: every TABLE entry can be read out through the command port, from any state. -/
def Obligations.TableReadoutThroughPort : Prop :=
  (∀ (s : State) (i : Byte),
    (runInputs s [Input.ofInstr .init, Input.ofInstr (.update (i ^^^ hi s.cfg.initValue))]).acc
      = pair (lo s.cfg.initValue) 0x00#8 ^^^ memRead i)
  ∧ (∀ (s : State) (i : Byte), s.cfg.initValue = 0x0000#16 →
      (runInputs s [Input.ofInstr .init, Input.ofInstr (.update i)]).acc = memRead i)
  ∧ (∀ (s : State) (i : Byte), s.cfg.initValue = 0xFFFF#16 →
      (runInputs s [Input.ofInstr .init, Input.ofInstr (.update (i ^^^ 0xFF#8))]).acc = 0xFF00#16 ^^^ memRead i)

/-- R26: what the host may take from `acc_o` and `result_o` in each phase, along a checksum. -/
def Obligations.HostReadingsByPhase : Prop :=
  (∀ s : State, s.phase = .uninit → hostChecksumState s = none ∧ hostResult s = none ∧ resultValid s = false)
  ∧ (∀ (s : State) (m : List Byte),
      hostChecksumState (runInputs s (Input.ofInstr .init :: updates m)) = some (m.foldl reduce s.cfg.initValue)
      ∧ hostResult (runInputs s (Input.ofInstr .init :: updates m)) = none
      ∧ resultValid (runInputs s (Input.ofInstr .init :: updates m)) = false
      ∧ (runInputs s (Input.ofInstr .init :: updates m)).result = s.result)
  ∧ (∀ (s : State) (m : List Byte),
      hostResult (runInputs s (checksumStream m)) = some (crc s.cfg m)
      ∧ hostChecksumState (runInputs s (checksumStream m)) = some (accOf s.cfg m)
      ∧ resultValid (runInputs s (checksumStream m)) = true)

/-- R6, R108: no command and no reset reads N_INST or PIPE_STAGES, and no input writes Cfg. -/
def Obligations.TimingParametersAreUnread : Prop :=
  ∀ (s : State) (l : List Input) (n k : Nat),
    (runInputs s l).cfg = s.cfg
    ∧ runInputs { s with cfg := { s.cfg with nInst := n, pipeStages := k } } l =
        { runInputs s l with cfg := { s.cfg with nInst := n, pipeStages := k } }

/-- R103: a run that does not begin with Reset has no meaning (refused); one that does starts from the reset state. That
the empty run is refused too is the model's reading (DEDUCED, log 7). -/
def Obligations.RunsBeforeResetAreRefused : Prop :=
  (∀ c : Cfg, runFromPowerUp c [] = .refused .beforeFirstReset)
  ∧ (∀ (c : Cfg) (w : CmdWord) (l : List Input), runFromPowerUp c (.cmd w :: l) = .refused .beforeFirstReset)
  ∧ (∀ (c : Cfg) (l : List Input), runFromPowerUp c (.reset :: l) = .next (runInputs (State.resetWith c) l))

/-! ### The port level and the system -/

/-- R25: with no command in flight every output is a view of the registers, as the table of the rule says, whatever the
free choice `showsAfter` (log 9);
`cmd_ready_o` is constant 1 outside reset when PIPE_STAGES = 0; and `err_o` is `FCAUSE != 0` where the fault record is
consistent. -/
def Obligations.OutputsShowRegisters : Prop :=
  (∀ (p : PortState) (showsAfter : OutPort → Bool), p.inFlight = none →
    (p.outputs showsAfter).acc = p.block.acc ∧ (p.outputs showsAfter).result = p.block.result
    ∧ ((p.outputs showsAfter).resultValid = true ↔ p.block.phase = .final)
    ∧ (p.outputs showsAfter).phase = p.block.phase.toBits ∧ (p.outputs showsAfter).errSeq = p.block.errSeq ∧ (p.outputs showsAfter).errIll = p.block.errIll
    ∧ (p.outputs showsAfter).err = (p.block.errSeq || p.block.errIll)
    ∧ (faultRecordConsistent p.block → ((p.outputs showsAfter).err = true ↔ p.block.fcause ≠ .noFault))
    ∧ (p.outputs showsAfter).finfo = (p.block.fcause.toBits ++ p.block.fcmd).cast rfl)
  ∧ (∀ p : PortState, PortInv p → p.block.cfg.pipeStages = 0 → p.cmdReady false = true)

/-- R105: the port level refines the command level, for every Cfg, every PIPE_STAGES and every sequence of pins: once
the command in flight is counted, the registers are those of the command-level run over the accepted inputs; and
whenever `cmd_ready_o` = 1 there is no command in flight, and the registers are the settled state. -/
def Obligations.PortRefinesCommandLevel : Prop :=
  (∀ (p : PortState) (l : List Pins), (p.run l).settled = runInputs p.settled (p.acceptedInputs l))
  ∧ (∀ (p : PortState) (rst : Bool), p.cmdReady rst = true →
      p.inFlight = none ∧ p.settled = p.block ∧ rst = false)
  ∧ (∀ (p : PortState) (pins : Pins) (w : CmdWord), p.accepted pins = some w ↔
      (pins.rst = false ∧ pins.cmdValid = true ∧ p.cmdReady pins.rst = true ∧ pins.cmd = w))
  ∧ (∀ (p : PortState) (pins : Pins), pins.rst = false → p.accepted pins = none →
      (p.edge pins).settled = p.settled)
  ∧ (∀ p : PortState, p.cmdReady true = false)
  ∧ (∀ p : PortState, PortInv p → p.block.cfg.pipeStages = 0 → p.cmdReady false = true)

/-- R108: PIPE_STAGES changes no architectural state. Two blocks that differ in it alone and accepted the same inputs
settle to the same registers; whenever `cmd_ready_o` = 1 every output shows the state after exactly the commands
accepted; and while a command is in flight each of the eight outputs shows the state before it or the state after it,
under every choice `showsAfter` of the free value (that each port chooses alone is the model's choice, log 9). -/
def Obligations.PipeStagesAreInvisible : Prop :=
  (∀ (c : Cfg) (k : Nat) (l l' : List Pins),
    (PortState.resetWith c).acceptedInputs l =
      (PortState.resetWith { c with pipeStages := k }).acceptedInputs l' →
    { ((PortState.resetWith c).run l).settled with cfg := c } =
      { ((PortState.resetWith { c with pipeStages := k }).run l').settled with cfg := c })
  ∧ (∀ (p : PortState) (rst : Bool) (showsAfter : OutPort → Bool), p.cmdReady rst = true →
      p.outputs showsAfter = outputs p.settled)
  ∧ (∀ (p : PortState) (showsAfter : OutPort → Bool),
      ((p.outputs showsAfter).acc = (outputs p.block).acc ∨ (p.outputs showsAfter).acc = (outputs p.settled).acc)
      ∧ ((p.outputs showsAfter).result = (outputs p.block).result ∨ (p.outputs showsAfter).result = (outputs p.settled).result)
      ∧ ((p.outputs showsAfter).resultValid = (outputs p.block).resultValid
        ∨ (p.outputs showsAfter).resultValid = (outputs p.settled).resultValid)
      ∧ ((p.outputs showsAfter).phase = (outputs p.block).phase ∨ (p.outputs showsAfter).phase = (outputs p.settled).phase)
      ∧ ((p.outputs showsAfter).errSeq = (outputs p.block).errSeq ∨ (p.outputs showsAfter).errSeq = (outputs p.settled).errSeq)
      ∧ ((p.outputs showsAfter).errIll = (outputs p.block).errIll ∨ (p.outputs showsAfter).errIll = (outputs p.settled).errIll)
      ∧ ((p.outputs showsAfter).err = (outputs p.block).err ∨ (p.outputs showsAfter).err = (outputs p.settled).err)
      ∧ ((p.outputs showsAfter).finfo = (outputs p.block).finfo ∨ (p.outputs showsAfter).finfo = (outputs p.settled).finfo))
  ∧ (∀ p : PortState, (p.outputs fun _ => false) = outputs p.block ∧ (p.outputs fun _ => true) = outputs p.settled)

/-- R106, R109: bounded completion. A command accepted at an edge is in the registers, and `cmd_ready_o` is 1 again,
after exactly `1 + PIPE_STAGES` edges, whatever the other pins do, if Reset does not intervene (that every command takes
exactly that many is DEDUCED, log 12). -/
def Obligations.AcceptedCommandCompletesInBoundedTime : Prop :=
  ∀ (p : PortState) (first : Pins) (later : List Pins) (w : CmdWord),
    p.accepted first = some w → later.length = p.block.cfg.pipeStages → (∀ pins ∈ later, pins.rst = false) →
      (p.run (first :: later)).block = after p.block (.cmd w)
      ∧ (p.run (first :: later)).cmdReady false = true

/-- The pipeline invariant of the port level (R108, R109): a command in flight has between 1 and PIPE_STAGES edges to
go. It holds after reset and every edge keeps it. -/
def Obligations.EveryEdgeKeepsPortInv : Prop :=
  (∀ c : Cfg, PortInv (PortState.resetWith c))
  ∧ (∀ (p : PortState) (pins : Pins), PortInv p → PortInv (p.edge pins))

/-- R95: every block of a system ends, under any interleaving, in the state it would reach alone on its own inputs; all
N_INST blocks start in the reset state of one Cfg. -/
def Obligations.BlocksAreIndependent : Prop :=
  (∀ (sys : System) (l : List (Nat × Input)) (k : Nat) (s : State), sys.blocks[k]? = some s →
    (sys.run l).blocks[k]? = some (runInputs s (inputsOf k l)))
  ∧ (∀ (sys : System) (l : List (Nat × Input)), (sys.run l).blocks.length = sys.blocks.length)
  ∧ (∀ c : Cfg, (System.resetWith c).blocks.length = c.nInst
      ∧ ∀ s ∈ (System.resetWith c).blocks, s = State.resetWith c)

/-! ### The assembler -/

/-- R48: the inputs of the five core lines, and that an operand outside its range is rejected. -/
def Obligations.AssemblerLines : Prop :=
  assembleLine .init = some [.cmd 0x000#10]
  ∧ (∀ n : Nat, n ≤ 255 → assembleLine (.upd n) = some [.cmd (0x100#10 + BitVec.ofNat 10 n)])
  ∧ assembleLine .fin = some [.cmd 0x200#10]
  ∧ (∀ n : Nat, n < 1024 → assembleLine (.word n) = some [.cmd (BitVec.ofNat 10 n)])
  ∧ assembleLine .reset = some [.reset]
  ∧ (∀ n : Nat, 255 < n → assembleLine (.upd n) = none)

/-- R49: the pseudo-instructions expand to the streams they stand for; with an empty operand to no UPDATE at all. -/
def Obligations.PseudoInstructionsExpand : Prop :=
  (∀ text : List Char, text.all isAsciiChar = true →
    assembleLine (.upds text) = some (updates (text.map fun c => BitVec.ofNat 8 c.toNat))
    ∧ assembleLine (.crc text) = some (checksumStream (text.map fun c => BitVec.ofNat 8 c.toNat)))
  ∧ (∀ bytes : List Byte,
      assembleLine (.updb (bytes.map BitVec.toNat)) = some (updates bytes)
      ∧ assembleLine (.crcb (bytes.map BitVec.toNat)) = some (checksumStream bytes))
  ∧ assembleLine (.upds []) = some [] ∧ assembleLine (.updb []) = some []
  ∧ assembleLine (.crc []) = some [.cmd 0x000#10, .cmd 0x200#10]

/-! ### Sensitivity, in the rule's words and on the machine -/

/-- R75: two messages that have the same length and differ in exactly one byte have different checksums, under every Cfg;
two blocks of one Cfg, from any states, deliver different RESULTs for them. What the rule keeps as not guaranteed: messages
that differ in more bytes (95_test_vectors.md V11), or in length, can collide. -/
def Obligations.OneByteChangeShowsInResult : Prop :=
  (∀ (c : Cfg) (m m' : List Byte), differInOneByte m m' = true → m.length = m'.length ∧ crc c m ≠ crc c m')
  ∧ (∀ (s s' : State) (m m' : List Byte), s.cfg = s'.cfg → differInOneByte m m' = true →
      (runInputs s (checksumStream m)).result ≠ (runInputs s' (checksumStream m')).result)
  ∧ (∃ m m' : List Byte, m.length = m'.length ∧ m ≠ m' ∧ differInOneByte m m' = false
      ∧ crc Cfg.ccittFalse m = crc Cfg.ccittFalse m')
  ∧ (∃ m m' : List Byte, m.length ≠ m'.length ∧ crc Cfg.ccittFalse m = crc Cfg.ccittFalse m')
end

