-- ==== Sys2Proof/Laws/Decode.lean ====
section
/-! SUPPORT. What the decoder can answer, and the fields of an encoded word (30_encoding.md R41, R47). -/

namespace Sys2Proof.Laws

/-- Bit `i` of `{OP, DATA}`. -/
theorem getLsbD_word (op : BitVec 2) (d : Byte) (i : Nat) :
    (word op d).getLsbD i = if i < 8 then d.getLsbD i else op.getLsbD (i - 8) := by
  rw [word, BitVec.getLsbD_cast, BitVec.getLsbD_append]

@[simp] theorem opField_word (op : BitVec 2) (d : Byte) : opField (word op d) = op := by
  apply BitVec.eq_of_getLsbD_eq
  intro i hi
  simp only [opField, BitVec.getLsbD_extractLsb', getLsbD_word, hi, decide_true, Bool.true_and]
  rw [if_neg (by omega), Nat.add_sub_cancel_left]

@[simp] theorem dataField_word (op : BitVec 2) (d : Byte) : dataField (word op d) = d := by
  apply BitVec.eq_of_getLsbD_eq
  intro i hi
  simp only [dataField, BitVec.getLsbD_extractLsb', getLsbD_word, hi, decide_true, Bool.true_and, Nat.zero_add,
    if_true]

/-- A word is its two fields (R40). -/
theorem word_fields (w : CmdWord) : word (opField w) (dataField w) = w := by
  apply BitVec.eq_of_getLsbD_eq
  intro i hi
  rw [getLsbD_word]
  by_cases h : i < 8
  · simp only [dataField, BitVec.getLsbD_extractLsb', h, decide_true, Bool.true_and, Nat.zero_add, if_true]
  · simp only [opField, BitVec.getLsbD_extractLsb', h, if_false, show i - 8 < 2 by omega,
      show 8 + (i - 8) = i by omega, decide_true, Bool.true_and]

/-- The four answers of the decoder, in its order (R47). -/
theorem decode_cases (w : CmdWord) :
    (w = 0x000#10 ∧ decode w = .instr .init)
    ∨ (opField w = 0b01#2 ∧ decode w = .instr (.update (dataField w)))
    ∨ (w = 0x200#10 ∧ decode w = .instr .finalize)
    ∨ (w ≠ 0x000#10 ∧ opField w ≠ 0b01#2 ∧ w ≠ 0x200#10 ∧ decode w = .illegal (illegalClass w)) := by
  unfold decode
  split
  · simp_all
  · split
    · simp_all
    · split <;> simp_all

end Sys2Proof.Laws
end

