-- ==== Sys2Proof/Laws/State.lean ====
section
/-! SUPPORT. One lemma per field per update of State, so that no later proof unfolds a record update. -/

namespace Sys2Proof.Machine.Laws

variable (s : State)

/-! ### setAcc -/

@[simp] theorem setAcc_cfg (v : Word16) : (s.setAcc v).cfg = s.cfg := rfl
@[simp] theorem setAcc_acc (v : Word16) : (s.setAcc v).acc = v := rfl
@[simp] theorem setAcc_phase (v : Word16) : (s.setAcc v).phase = s.phase := rfl
@[simp] theorem setAcc_result (v : Word16) : (s.setAcc v).result = s.result := rfl
@[simp] theorem setAcc_errSeq (v : Word16) : (s.setAcc v).errSeq = s.errSeq := rfl
@[simp] theorem setAcc_errIll (v : Word16) : (s.setAcc v).errIll = s.errIll := rfl
@[simp] theorem setAcc_fcause (v : Word16) : (s.setAcc v).fcause = s.fcause := rfl
@[simp] theorem setAcc_fcmd (v : Word16) : (s.setAcc v).fcmd = s.fcmd := rfl
@[simp] theorem setAcc_inputs (v : Word16) : (s.setAcc v).inputs = s.inputs := rfl

/-! ### setPhase -/

@[simp] theorem setPhase_cfg (p : Phase) : (s.setPhase p).cfg = s.cfg := rfl
@[simp] theorem setPhase_acc (p : Phase) : (s.setPhase p).acc = s.acc := rfl
@[simp] theorem setPhase_phase (p : Phase) : (s.setPhase p).phase = p := rfl
@[simp] theorem setPhase_result (p : Phase) : (s.setPhase p).result = s.result := rfl
@[simp] theorem setPhase_errSeq (p : Phase) : (s.setPhase p).errSeq = s.errSeq := rfl
@[simp] theorem setPhase_errIll (p : Phase) : (s.setPhase p).errIll = s.errIll := rfl
@[simp] theorem setPhase_fcause (p : Phase) : (s.setPhase p).fcause = s.fcause := rfl
@[simp] theorem setPhase_fcmd (p : Phase) : (s.setPhase p).fcmd = s.fcmd := rfl
@[simp] theorem setPhase_inputs (p : Phase) : (s.setPhase p).inputs = s.inputs := rfl

/-! ### setResult -/

@[simp] theorem setResult_cfg (v : Word16) : (s.setResult v).cfg = s.cfg := rfl
@[simp] theorem setResult_acc (v : Word16) : (s.setResult v).acc = s.acc := rfl
@[simp] theorem setResult_phase (v : Word16) : (s.setResult v).phase = s.phase := rfl
@[simp] theorem setResult_result (v : Word16) : (s.setResult v).result = v := rfl
@[simp] theorem setResult_errSeq (v : Word16) : (s.setResult v).errSeq = s.errSeq := rfl
@[simp] theorem setResult_errIll (v : Word16) : (s.setResult v).errIll = s.errIll := rfl
@[simp] theorem setResult_fcause (v : Word16) : (s.setResult v).fcause = s.fcause := rfl
@[simp] theorem setResult_fcmd (v : Word16) : (s.setResult v).fcmd = s.fcmd := rfl
@[simp] theorem setResult_inputs (v : Word16) : (s.setResult v).inputs = s.inputs := rfl

/-! ### setInputs -/

@[simp] theorem setInputs_cfg (l : List Input) : (s.setInputs l).cfg = s.cfg := rfl
@[simp] theorem setInputs_acc (l : List Input) : (s.setInputs l).acc = s.acc := rfl
@[simp] theorem setInputs_phase (l : List Input) : (s.setInputs l).phase = s.phase := rfl
@[simp] theorem setInputs_result (l : List Input) : (s.setInputs l).result = s.result := rfl
@[simp] theorem setInputs_errSeq (l : List Input) : (s.setInputs l).errSeq = s.errSeq := rfl
@[simp] theorem setInputs_errIll (l : List Input) : (s.setInputs l).errIll = s.errIll := rfl
@[simp] theorem setInputs_fcause (l : List Input) : (s.setInputs l).fcause = s.fcause := rfl
@[simp] theorem setInputs_fcmd (l : List Input) : (s.setInputs l).fcmd = s.fcmd := rfl
@[simp] theorem setInputs_inputs (l : List Input) : (s.setInputs l).inputs = l := rfl

/-! ### setErrFlag -/

@[simp] theorem setErrFlag_cfg (c : FaultCause) : (setErrFlag c s).cfg = s.cfg := by cases c <;> rfl
@[simp] theorem setErrFlag_acc (c : FaultCause) : (setErrFlag c s).acc = s.acc := by cases c <;> rfl
@[simp] theorem setErrFlag_phase (c : FaultCause) : (setErrFlag c s).phase = s.phase := by cases c <;> rfl
@[simp] theorem setErrFlag_result (c : FaultCause) : (setErrFlag c s).result = s.result := by cases c <;> rfl
@[simp] theorem setErrFlag_fcause (c : FaultCause) : (setErrFlag c s).fcause = s.fcause := by cases c <;> rfl
@[simp] theorem setErrFlag_fcmd (c : FaultCause) : (setErrFlag c s).fcmd = s.fcmd := by cases c <;> rfl
@[simp] theorem setErrFlag_inputs (c : FaultCause) : (setErrFlag c s).inputs = s.inputs := by cases c <;> rfl

@[simp] theorem setErrFlag_errSeq (c : FaultCause) :
    (setErrFlag c s).errSeq = (s.errSeq || decide (c = .seqErr)) := by cases c <;> simp [setErrFlag]

@[simp] theorem setErrFlag_errIll (c : FaultCause) :
    (setErrFlag c s).errIll = (s.errIll || decide (c = .illegalCmd)) := by cases c <;> simp [setErrFlag]

/-! ### recordFirstFault -/

@[simp] theorem recordFirstFault_cfg (c : FaultCause) (w : CmdWord) :
    (recordFirstFault c w s).cfg = s.cfg := by unfold recordFirstFault; split <;> rfl
@[simp] theorem recordFirstFault_acc (c : FaultCause) (w : CmdWord) :
    (recordFirstFault c w s).acc = s.acc := by unfold recordFirstFault; split <;> rfl
@[simp] theorem recordFirstFault_phase (c : FaultCause) (w : CmdWord) :
    (recordFirstFault c w s).phase = s.phase := by unfold recordFirstFault; split <;> rfl
@[simp] theorem recordFirstFault_result (c : FaultCause) (w : CmdWord) :
    (recordFirstFault c w s).result = s.result := by unfold recordFirstFault; split <;> rfl
@[simp] theorem recordFirstFault_errSeq (c : FaultCause) (w : CmdWord) :
    (recordFirstFault c w s).errSeq = s.errSeq := by unfold recordFirstFault; split <;> rfl
@[simp] theorem recordFirstFault_errIll (c : FaultCause) (w : CmdWord) :
    (recordFirstFault c w s).errIll = s.errIll := by unfold recordFirstFault; split <;> rfl
@[simp] theorem recordFirstFault_inputs (c : FaultCause) (w : CmdWord) :
    (recordFirstFault c w s).inputs = s.inputs := by unfold recordFirstFault; split <;> rfl

@[simp] theorem recordFirstFault_fcause (c : FaultCause) (w : CmdWord) :
    (recordFirstFault c w s).fcause = if s.fcause = .noFault then c else s.fcause := by
  unfold recordFirstFault; split <;> simp_all

@[simp] theorem recordFirstFault_fcmd (c : FaultCause) (w : CmdWord) :
    (recordFirstFault c w s).fcmd = if s.fcause = .noFault then w else s.fcmd := by
  unfold recordFirstFault; split <;> simp_all

/-! ### takeFault: everything the fault action does -/

@[simp] theorem takeFault_cfg (c : FaultCause) (w : CmdWord) :
    (takeFault c w s).cfg = s.cfg := by simp [takeFault]
@[simp] theorem takeFault_acc (c : FaultCause) (w : CmdWord) :
    (takeFault c w s).acc = s.acc := by simp [takeFault]
@[simp] theorem takeFault_phase (c : FaultCause) (w : CmdWord) :
    (takeFault c w s).phase = s.phase := by simp [takeFault]
@[simp] theorem takeFault_result (c : FaultCause) (w : CmdWord) :
    (takeFault c w s).result = s.result := by simp [takeFault]
@[simp] theorem takeFault_inputs (c : FaultCause) (w : CmdWord) :
    (takeFault c w s).inputs = s.inputs := by simp [takeFault]

@[simp] theorem takeFault_errSeq (c : FaultCause) (w : CmdWord) :
    (takeFault c w s).errSeq = (s.errSeq || decide (c = .seqErr)) := by simp [takeFault]

@[simp] theorem takeFault_errIll (c : FaultCause) (w : CmdWord) :
    (takeFault c w s).errIll = (s.errIll || decide (c = .illegalCmd)) := by simp [takeFault]

@[simp] theorem takeFault_fcause (c : FaultCause) (w : CmdWord) :
    (takeFault c w s).fcause = if s.fcause = .noFault then c else s.fcause := by simp [takeFault]

@[simp] theorem takeFault_fcmd (c : FaultCause) (w : CmdWord) :
    (takeFault c w s).fcmd = if s.fcause = .noFault then w else s.fcmd := by simp [takeFault]

/-! ### applyReset -/

@[simp] theorem applyReset_cfg : (applyReset s).cfg = s.cfg := rfl
@[simp] theorem applyReset_acc : (applyReset s).acc = 0x0000#16 := rfl
@[simp] theorem applyReset_phase : (applyReset s).phase = .uninit := rfl
@[simp] theorem applyReset_result : (applyReset s).result = 0x0000#16 := rfl
@[simp] theorem applyReset_errSeq : (applyReset s).errSeq = false := rfl
@[simp] theorem applyReset_errIll : (applyReset s).errIll = false := rfl
@[simp] theorem applyReset_fcause : (applyReset s).fcause = .noFault := rfl
@[simp] theorem applyReset_fcmd : (applyReset s).fcmd = 0x000#10 := rfl
@[simp] theorem applyReset_inputs : (applyReset s).inputs = s.inputs := rfl

/-! ### presentWord and fetchInput -/

@[simp] theorem presentWord_inputs (w : CmdWord) : (presentWord w s).inputs = .cmd w :: s.inputs := rfl

@[simp] theorem setInputs_self : s.setInputs s.inputs = s := rfl

@[simp] theorem setInputs_setInputs (l m : List Input) : (s.setInputs l).setInputs m = s.setInputs m := rfl

theorem fetchInput_nil (h : s.inputs = []) : fetchInput s = none := by simp [fetchInput, h]

theorem fetchInput_cons (inp : Input) (rest : List Input) (h : s.inputs = inp :: rest) :
    fetchInput s = some (inp, s.setInputs rest) := by simp [fetchInput, h]

/-- What is still to be presented plays no part in the fault action. -/
theorem takeFault_setInputs (c : FaultCause) (w : CmdWord) (l : List Input) :
    takeFault c w (s.setInputs l) = (takeFault c w s).setInputs l := by
  cases c <;> cases h : s.fcause <;> simp [takeFault, recordFirstFault, setErrFlag, State.setInputs, h]

end Sys2Proof.Machine.Laws
end

