-- ==== Sys2Proof/Laws/Accept.lean ====
section
/-! SUPPORT. What the phase check, one accepted input and one step can do, said once. -/

namespace Sys2Proof.Machine.Laws

/-- In sequence the command has its effect (R83). -/
theorem whenAccumulating_accum {i : Instr} {e : State → State} {s : State} (h : s.phase = .accum) :
    whenAccumulating i e s = .next (e s) := by simp [whenAccumulating, h]

/-- Out of sequence the command raises SEQ_ERR (R83). -/
theorem whenAccumulating_outOfSequence {i : Instr} {e : State → State} {s : State} (h : s.phase ≠ .accum) :
    whenAccumulating i e s = .next (takeFault .seqErr (encode i) s) := by
  cases hp : s.phase <;> simp_all [whenAccumulating]

theorem exec_init (s : State) : exec .init s = .next ((s.setAcc s.cfg.initValue).setPhase .accum) := rfl

theorem exec_update_accum {s : State} (b : Byte) (h : s.phase = .accum) :
    exec (.update b) s = .next (s.setAcc (reduce s.acc b)) :=
  whenAccumulating_accum (i := .update b) (e := fun t => t.setAcc (reduce t.acc b)) h

theorem exec_finalize_accum {s : State} (h : s.phase = .accum) :
    exec .finalize s = .next ((s.setResult (fin s.cfg s.acc)).setPhase .final) :=
  whenAccumulating_accum (i := .finalize) (e := fun t => (t.setResult (fin t.cfg t.acc)).setPhase .final) h

theorem exec_outOfSequence {i : Instr} {s : State} (hi : i ≠ .init) (h : s.phase ≠ .accum) :
    exec i s = .next (takeFault .seqErr (encode i) s) := by
  cases i with
  | init => exact absurd rfl hi
  | update b => exact whenAccumulating_outOfSequence (e := fun t => t.setAcc (reduce t.acc b)) h
  | finalize => exact whenAccumulating_outOfSequence (e := fun t => (t.setResult (fin t.cfg t.acc)).setPhase .final) h

/-- A command either has its own effect or takes SEQ_ERR; nothing else is possible. -/
theorem exec_cases (i : Instr) (s : State) :
    (i = .init ∧ exec i s = .next ((s.setAcc s.cfg.initValue).setPhase .accum))
    ∨ (∃ b, i = .update b ∧ s.phase = .accum ∧ exec i s = .next (s.setAcc (reduce s.acc b)))
    ∨ (i = .finalize ∧ s.phase = .accum ∧ exec i s = .next ((s.setResult (fin s.cfg s.acc)).setPhase .final))
    ∨ (i ≠ .init ∧ s.phase ≠ .accum ∧ exec i s = .next (takeFault .seqErr (encode i) s)) := by
  by_cases h : s.phase = .accum
  · cases i with
    | init => exact .inl ⟨rfl, exec_init s⟩
    | update b => exact .inr (.inl ⟨b, rfl, h, exec_update_accum b h⟩)
    | finalize => exact .inr (.inr (.inl ⟨rfl, h, exec_finalize_accum h⟩))
  · by_cases hi : i = .init
    · exact .inl ⟨hi, hi ▸ exec_init s⟩
    · exact .inr (.inr (.inr ⟨hi, h, exec_outOfSequence hi h⟩))

/-- `after` is what `acceptInput` answers, for every input in every state. -/
theorem acceptInput_eq_after (inp : Input) (s : State) : acceptInput inp s = .next (after s inp) := by
  cases inp with
  | reset => rfl
  | cmd w =>
    obtain ⟨-, h⟩ | ⟨-, h⟩ | ⟨-, h⟩ | ⟨-, -, -, h⟩ := Sys2Proof.Laws.decode_cases w
    all_goals
      simp only [after, acceptInput, acceptWord, h]
    · obtain ⟨-, h⟩ | ⟨b, -, -, h⟩ | ⟨-, -, h⟩ | ⟨-, -, h⟩ := exec_cases .init s <;> rw [h]
    · obtain ⟨-, h⟩ | ⟨b, -, -, h⟩ | ⟨-, -, h⟩ | ⟨-, -, h⟩ := exec_cases (.update (dataField w)) s <;> rw [h]
    · obtain ⟨-, h⟩ | ⟨b, -, -, h⟩ | ⟨-, -, h⟩ | ⟨-, -, h⟩ := exec_cases .finalize s <;> rw [h]

@[simp] theorem after_reset (s : State) : after s .reset = applyReset s := rfl

/-- A legal word runs its command. -/
theorem after_legal {s t : State} {w : CmdWord} {i : Instr} (hd : decode w = .instr i) (he : exec i s = .next t) :
    after s (.cmd w) = t := by simp [after, acceptInput, acceptWord, hd, he]

/-- An illegal word takes ILLEGAL_CMD (R84). -/
theorem after_illegal {s : State} {w : CmdWord} {why : IllegalWord} (hd : decode w = .illegal why) :
    after s (.cmd w) = takeFault .illegalCmd w s := by simp [after, acceptInput, acceptWord, hd]

theorem step_nil {s : State} (h : s.inputs = []) : step s = .next s := by simp [step, fetchInput_nil s h]

theorem step_cons {s : State} {inp : Input} {rest : List Input} (h : s.inputs = inp :: rest) :
    step s = .next (after (s.setInputs rest) inp) := by
  simp [step, fetchInput_cons s inp rest h, acceptInput_eq_after]

/-- No input writes Cfg (R13, R27). -/
@[simp] theorem after_cfg (s : State) (inp : Input) : (after s inp).cfg = s.cfg := by
  cases inp with
  | reset => rfl
  | cmd w =>
    cases hd : decode w with
    | illegal why => rw [after_illegal hd, takeFault_cfg]
    | instr i =>
      obtain ⟨-, h⟩ | ⟨b, -, -, h⟩ | ⟨-, -, h⟩ | ⟨-, -, h⟩ := exec_cases i s <;> rw [after_legal hd h] <;> simp

/-- No input writes what the host has still to present. -/
@[simp] theorem after_inputs (s : State) (inp : Input) : (after s inp).inputs = s.inputs := by
  cases inp with
  | reset => rfl
  | cmd w =>
    cases hd : decode w with
    | illegal why => rw [after_illegal hd, takeFault_inputs]
    | instr i =>
      obtain ⟨-, h⟩ | ⟨b, -, -, h⟩ | ⟨-, -, h⟩ | ⟨-, -, h⟩ := exec_cases i s <;> rw [after_legal hd h] <;> simp

/-- No input reads what the host has still to present. -/
theorem after_setInputs (s : State) (l : List Input) (inp : Input) :
    after (s.setInputs l) inp = (after s inp).setInputs l := by
  cases inp with
  | reset => rfl
  | cmd w =>
    cases hd : decode w with
    | illegal why => rw [after_illegal hd, after_illegal hd, takeFault_setInputs]
    | instr i =>
      obtain ⟨rfl, h⟩ | ⟨b, rfl, hp, h⟩ | ⟨rfl, hp, h⟩ | ⟨hi, hp, h⟩ := exec_cases i s <;> rw [after_legal hd h]
      · rw [after_legal hd (exec_init _)]; rfl
      · rw [after_legal hd (exec_update_accum (s := s.setInputs l) b hp)]; rfl
      · rw [after_legal hd (exec_finalize_accum (s := s.setInputs l) hp)]; rfl
      · rw [after_legal hd (exec_outOfSequence (s := s.setInputs l) hi hp), takeFault_setInputs]

/-- One step of a host run that answers a next state. -/
theorem run_succ (M : Host.Core) (n : Nat) (s t : M.State) (h : M.step s = .next t) :
    M.run (n + 1) s = M.run n t := by
  rw [Host.Core.run, h]

/-! ### The four kinds of input, one lemma each -/

theorem after_init (s : State) : after s (Input.ofInstr .init) = (s.setAcc s.cfg.initValue).setPhase .accum := rfl

theorem decode_encode_update (b : Byte) : decode (encode (.update b)) = .instr (.update b) := by
  have hw : word 0b01#2 b ≠ 0x000#10 := fun h => by
    have := congrArg opField h
    rw [Sys2Proof.Laws.opField_word] at this
    exact absurd this (by decide)
  simp [decode, encode, hw]

theorem after_update {s : State} (b : Byte) (h : s.phase = .accum) :
    after s (Input.ofInstr (.update b)) = s.setAcc (reduce s.acc b) :=
  after_legal (decode_encode_update b) (exec_update_accum b h)

theorem after_finalize {s : State} (h : s.phase = .accum) :
    after s (Input.ofInstr .finalize) = (s.setResult (fin s.cfg s.acc)).setPhase .final :=
  after_legal rfl (exec_finalize_accum h)

end Sys2Proof.Machine.Laws
end

