-- ==== Sys2Proof/Laws/Bits.lean ====
section
/-! SUPPORT. The slices, the concatenation and the byte swap of 00_scope.md R8 and R9. -/

namespace Sys2Proof.Machine.Laws

/-- Bit `i` of `{h, l}`. -/
theorem getLsbD_pair (h l : Byte) (i : Nat) :
    (pair h l).getLsbD i = if i < 8 then l.getLsbD i else h.getLsbD (i - 8) := by
  rw [pair, BitVec.getLsbD_cast, BitVec.getLsbD_append]

theorem getLsbD_hi (a : Word16) (i : Nat) : (hi a).getLsbD i = (decide (i < 8) && a.getLsbD (8 + i)) := by
  simp [Machine.hi]

theorem getLsbD_lo (a : Word16) (i : Nat) : (lo a).getLsbD i = (decide (i < 8) && a.getLsbD i) := by
  simp [Machine.lo]

@[simp] theorem hi_pair (h l : Byte) : hi (pair h l) = h := by
  apply BitVec.eq_of_getLsbD_eq
  intro i hi
  rw [getLsbD_hi, getLsbD_pair, if_neg (by omega), Nat.add_sub_cancel_left]
  simp only [hi, decide_true, Bool.true_and]

@[simp] theorem lo_pair (h l : Byte) : lo (pair h l) = l := by
  apply BitVec.eq_of_getLsbD_eq
  intro i hi
  rw [getLsbD_lo, getLsbD_pair, if_pos hi]
  simp only [hi, decide_true, Bool.true_and]

@[simp] theorem pair_hi_lo (a : Word16) : pair (hi a) (lo a) = a := by
  apply BitVec.eq_of_getLsbD_eq
  intro i hi
  rw [getLsbD_pair]
  by_cases h : i < 8
  · simp only [h, getLsbD_lo, if_true, decide_true, Bool.true_and]
  · simp only [h, getLsbD_hi, if_false, show i - 8 < 8 by omega, show 8 + (i - 8) = i by omega, decide_true,
      Bool.true_and]

@[simp] theorem hi_xor (a b : Word16) : hi (a ^^^ b) = hi a ^^^ hi b := by
  apply BitVec.eq_of_getLsbD_eq
  intro i hi
  simp only [getLsbD_hi, BitVec.getLsbD_xor, hi, decide_true, Bool.true_and]

@[simp] theorem lo_xor (a b : Word16) : lo (a ^^^ b) = lo a ^^^ lo b := by
  apply BitVec.eq_of_getLsbD_eq
  intro i hi
  simp only [getLsbD_lo, BitVec.getLsbD_xor, hi, decide_true, Bool.true_and]

/-- Two words with the same bytes are the same word. -/
theorem word_ext {a b : Word16} (h : hi a = hi b) (l : lo a = lo b) : a = b := by
  rw [← pair_hi_lo a, ← pair_hi_lo b, h, l]

theorem pair_xor (h l h' l' : Byte) : pair (h ^^^ h') (l ^^^ l') = pair h l ^^^ pair h' l' :=
  word_ext (by simp) (by simp)

/-- `a << 8` is the low byte moved up, with a zero low byte (R55). -/
theorem shiftLeft_eight (a : Word16) : a <<< 8 = pair (lo a) 0x00#8 := by
  apply BitVec.eq_of_getLsbD_eq
  intro i hi
  rw [getLsbD_pair]
  by_cases h : i < 8
  · simp [h]
  · simp only [h, hi, BitVec.getLsbD_shiftLeft, getLsbD_lo, if_false, show i - 8 < 8 by omega, decide_true,
      decide_false, Bool.not_false, Bool.true_and]

@[simp] theorem bswap16_bswap16 (v : Word16) : bswap16 (bswap16 v) = v := by simp [bswap16]

end Sys2Proof.Machine.Laws
end

