-- ==== Sys2Proof/Laws/Datapath.lean ====
section
/-! SUPPORT. Facts about the single-bit stage, the table and `reduce` from which the laws of 41_update.md follow. -/

namespace Sys2Proof.Machine.Laws

/-- One single-bit stage is linear (R58). -/
theorem bitStage_xor (a b : Word16) : bitStage (a ^^^ b) = bitStage a ^^^ bitStage b := by
  simp only [bitStage, BitVec.getLsbD_xor, BitVec.shiftLeft_xor_distrib]
  cases a.getLsbD 15 <;> cases b.getLsbD 15
  · rfl
  · exact BitVec.xor_assoc _ _ _
  · change a <<< 1 ^^^ b <<< 1 ^^^ poly = a <<< 1 ^^^ poly ^^^ b <<< 1
    ac_rfl
  · change a <<< 1 ^^^ b <<< 1 = a <<< 1 ^^^ poly ^^^ (b <<< 1 ^^^ poly)
    rw [show a <<< 1 ^^^ poly ^^^ (b <<< 1 ^^^ poly) = a <<< 1 ^^^ b <<< 1 ^^^ (poly ^^^ poly) by ac_rfl,
      BitVec.xor_self, BitVec.xor_zero]

/-- Any number of single-bit stages is linear (R58). -/
theorem bitStages_xor (n : Nat) (a b : Word16) :
    bitStages n (a ^^^ b) = bitStages n a ^^^ bitStages n b := by
  induction n generalizing a b with
  | zero => rfl
  | succ n ih => rw [bitStages, bitStages, bitStages, bitStage_xor, ih]

theorem bitStages_add (m n : Nat) (a : Word16) : bitStages (m + n) a = bitStages n (bitStages m a) := by
  induction m generalizing a with
  | zero => simp [bitStages]
  | succ m ih => rw [Nat.succ_add, bitStages, bitStages, ih]

@[simp] theorem bitStage_zero : bitStage 0x0000#16 = 0x0000#16 := by decide

@[simp] theorem memRead_zero : memRead 0x00#8 = 0x0000#16 := by decide

/-- The definition of R31 gives the listing of R32, all 256 entries. -/
theorem tableListing_eq : (List.range 256).map (fun i => memRead (BitVec.ofNat 8 i)) = tableListing := by decide +kernel

/-- `reduce` by output bytes' parts (R55, second form). -/
theorem reduce_eq (a : Word16) (b : Byte) :
    reduce a b = pair (lo a) 0x00#8 ^^^ memRead (hi a ^^^ b) := by
  rw [reduce, reduceWith, shiftLeft_eight, tableIndex]

theorem fin_noSwap {c : Cfg} (h : c.swapOut = false) (a : Word16) : fin c a = a ^^^ c.xorOut := by simp [fin, h]

theorem fin_swap {c : Cfg} (h : c.swapOut = true) (a : Word16) : fin c a = bswap16 (a ^^^ c.xorOut) := by
  simp [fin, h]

end Sys2Proof.Machine.Laws
end

