-- ==== Sys2Proof/Laws/PerInstr.lean ====
section
/-! SUPPORT. Statements made per instruction: the word of every command is selected by its own row of the opcode map
(30_encoding.md R42) and the command is well formed. -/

namespace Sys2Proof.Laws.RowSelects

/-- The instruction is well formed and its row of R42 selects its word. -/
def Statement (i : Instr) : Prop := i.wellFormed = true ∧ (opRow i).selects (encode i) = true

theorem init : Statement .init := ⟨rfl, by decide⟩

theorem update (byte : Byte) : Statement (.update byte) := by
  refine ⟨rfl, ?_⟩
  simp only [OpRow.selects, opRow, encode]
  apply decide_eq_true
  apply BitVec.eq_of_getLsbD_eq
  intro i hi
  rw [BitVec.getLsbD_and, getLsbD_word]
  have : i = 0 ∨ i = 1 ∨ i = 2 ∨ i = 3 ∨ i = 4 ∨ i = 5 ∨ i = 6 ∨ i = 7 ∨ i = 8 ∨ i = 9 := by omega
  rcases this with rfl | rfl | rfl | rfl | rfl | rfl | rfl | rfl | rfl | rfl <;> simp

theorem finalize : Statement .finalize := ⟨rfl, by decide⟩

end Sys2Proof.Laws.RowSelects
end

