-- ==== Sys2Proof/Laws/Streams.lean ====
section
/-! SUPPORT. Runs as folds (43_streams_and_laws.md R68, R70). -/

namespace Sys2Proof.Machine.Laws

@[simp] theorem runInputs_nil (s : State) : runInputs s [] = s := rfl

@[simp] theorem runInputs_cons (s : State) (inp : Input) (l : List Input) :
    runInputs s (inp :: l) = runInputs (after s inp) l := rfl

theorem runInputs_append (s : State) (l m : List Input) :
    runInputs s (l ++ m) = runInputs (runInputs s l) m := List.foldl_append

@[simp] theorem updates_nil : updates [] = [] := rfl

@[simp] theorem updates_cons (b : Byte) (m : List Byte) :
    updates (b :: m) = Input.ofInstr (.update b) :: updates m := rfl

theorem updates_append (m n : List Byte) : updates (m ++ n) = updates m ++ updates n := List.map_append

/-- The premise of R75, in full: a common part, one byte that differs, a common rest. -/
theorem differInOneByte_iff (m m' : List Byte) :
    differInOneByte m m' = true ↔ ∃ p b b' q, b ≠ b' ∧ m = p ++ b :: q ∧ m' = p ++ b' :: q := by
  constructor
  · fun_induction differInOneByte m m' with
    | case1 => simp
    | case2 => simp
    | case3 => simp
    | case4 m c m' ih =>
      intro h
      obtain ⟨p, b, b', q, hb, rfl, rfl⟩ := ih h
      exact ⟨c :: p, b, b', q, hb, rfl, rfl⟩
    | case5 b m b' m' hb =>
      intro h
      exact ⟨[], b, b', m, hb, rfl, by rw [of_decide_eq_true h]; rfl⟩
  · rintro ⟨p, b, b', q, hb, rfl, rfl⟩
    induction p with
    | nil => simp [differInOneByte, hb]
    | cons c p ih => simp [differInOneByte, ih]

/-- Updates in phase ACCUM fold their bytes into ACC and change nothing else. -/
theorem runInputs_updates (s : State) (m : List Byte) (h : s.phase = .accum) :
    runInputs s (updates m) = s.setAcc (m.foldl reduce s.acc) := by
  induction m generalizing s with
  | nil => rfl
  | cons b m ih => rw [updates_cons, runInputs_cons, after_update b h, ih _ (by simpa using h)]; rfl

end Sys2Proof.Machine.Laws
end

