-- ==== Sys2Proof/Laws/Ports.lean ====
section
/-! SUPPORT. What one clock edge can do (70_reset_and_hazards.md R105, R108). -/

namespace Sys2Proof.Machine.Laws

/-- The five things an edge can do to the registers and the pipeline: reset; move a command on; commit it; accept one;
nothing. -/
theorem edge_cases (p : PortState) (pins : Pins) :
    (pins.rst = true ∧ p.edge pins = p.applyReset)
    ∨ (∃ f, pins.rst = false ∧ p.inFlight = some f ∧ p.edge pins = p.advance f)
    ∨ (pins.rst = false ∧ p.inFlight = none ∧ pins.cmdValid = true ∧ p.edge pins = p.launch pins.cmd)
    ∨ (pins.rst = false ∧ p.inFlight = none ∧ pins.cmdValid = false ∧ p.edge pins = p) := by
  unfold PortState.edge
  cases hr : pins.rst
  · cases hf : p.inFlight with
    | some f => simp
    | none => cases hv : pins.cmdValid <;> simp
  · simp

/-- An edge with nothing offered and nothing in flight changes nothing at all (R94). -/
theorem edge_idle (p : PortState) (pins : Pins) (hr : pins.rst = false) (hv : pins.cmdValid = false)
    (hf : p.inFlight = none) : p.edge pins = p := by
  simp [PortState.edge, hr, hv, hf]

/-- With no command in flight every port shows the registers, whatever the free choice (R25). -/
theorem shown_settled (p : PortState) (showsAfter : OutPort → Bool) (o : OutPort) (hf : p.inFlight = none) :
    p.shown showsAfter o = p.block := by
  simp [PortState.shown, hf]

/-- A port shows the state before the command in flight or the state after it, nothing else (R108). -/
theorem shown_cases (p : PortState) (showsAfter : OutPort → Bool) (o : OutPort) :
    p.shown showsAfter o = p.block ∨ p.shown showsAfter o = p.settled := by
  unfold PortState.shown
  split
  · exact .inl rfl
  · split
    · exact .inr rfl
    · exact .inl rfl

@[simp] theorem port_run_nil (p : PortState) : p.run [] = p := rfl

@[simp] theorem port_run_cons (p : PortState) (pins : Pins) (l : List Pins) :
    p.run (pins :: l) = (p.edge pins).run l := rfl

theorem port_run_append (p : PortState) (l m : List Pins) : p.run (l ++ m) = (p.run l).run m := List.foldl_append

theorem acceptedInputs_append (p : PortState) (l m : List Pins) :
    p.acceptedInputs (l ++ m) = p.acceptedInputs l ++ (p.run l).acceptedInputs m := by
  induction l generalizing p with
  | nil => rfl
  | cons pins l ih => simp [PortState.acceptedInputs, ih, List.append_assoc]

/-- Moving a command on does not change the state it settles to. -/
theorem advance_settled (p : PortState) (f : InFlight) (h : p.inFlight = some f) :
    (p.advance f).settled = p.settled := by
  unfold PortState.advance
  split <;> simp [PortState.settled, h]

/-- An accepted command settles to its command-level effect, whatever PIPE_STAGES is. -/
theorem launch_settled (p : PortState) (w : CmdWord) (h : p.inFlight = none) :
    (p.launch w).settled = after p.settled (.cmd w) := by
  unfold PortState.launch
  split <;> simp [PortState.settled, h]

end Sys2Proof.Machine.Laws
end

