-- ==== Sys2Proof/Tests/Slice0.lean ====
section
/-! SUPPORT. The model's own tests: expected values from 95_test_vectors.md (named in each docstring) or written out from
the encodings of 30_encoding.md R42; then, for every statement with hypotheses, a witness that meets them. -/

namespace Sys2Proof.Machine.Tests

/-- A state as 95_test_vectors.md writes it: PHASE ACC RESULT ES EI FCAUSE FCMD, on a block built with `c`. -/
def stateOn (c : Cfg) (p : Phase) (a r : Word16) (es ei : Bool) (fc : FaultCause) (fw : CmdWord) : State :=
  { cfg := c, acc := a, phase := p, result := r, errSeq := es, errIll := ei, fcause := fc, fcmd := fw, inputs := [] }

/-- The same with the default profile. -/
abbrev st : Phase → Word16 → Word16 → Bool → Bool → FaultCause → CmdWord → State := stateOn Cfg.ccittFalse

/-- The outcome is the next state `t`. -/
def answers (o : Host.Outcome State Fault Refusal) (t : State) : Bool :=
  match o with
  | .next u => decide (u = t)
  | .fault _ => false
  | .refused _ => false

/-! ### Well-formedness: each check refuses an ill-formed term -/

theorem test_wf_no_block_refused : Cfg.wellFormed { nInst := 0 } = false := by decide
theorem test_wf_one_block : Cfg.wellFormed {} = true := by decide
theorem test_wf_instr : Instr.wellFormed (.update 0xFF#8) = true := by decide
theorem test_wf_upd_too_large_refused : AsmLine.wellFormed (.upd 256) = false := by decide
theorem test_wf_word_too_large_refused : AsmLine.wellFormed (.word 1024) = false := by decide
theorem test_wf_upds_not_ascii_refused : AsmLine.wellFormed (.upds [Char.ofNat 233]) = false := by decide
theorem test_wf_updb_too_large_refused : AsmLine.wellFormed (.updb [0, 256]) = false := by decide
theorem test_wf_crc_not_ascii_refused : AsmLine.wellFormed (.crc ['A', Char.ofNat 128]) = false := by decide
theorem test_wf_crcb_too_large_refused : AsmLine.wellFormed (.crcb [256]) = false := by decide

/-! ### Decoding: words written out bit by bit, OP then DATA (R42, V12) -/

theorem test_decode_init : decode 0b0000000000#10 = .instr .init := by decide
theorem test_decode_update_31 : decode 0b0100110001#10 = .instr (.update 0x31#8) := by decide
theorem test_decode_update_80_unsigned : decode 0b0110000000#10 = .instr (.update 0x80#8) := by decide
theorem test_decode_finalize : decode 0b1000000000#10 = .instr .finalize := by decide
theorem test_decode_init_data_refused : decode 0b0000000001#10 = .illegal .initDataNonzero := by decide
theorem test_decode_finalize_data_refused : decode 0b1011111111#10 = .illegal .finalizeDataNonzero := by decide
theorem test_decode_op3_refused : decode 0b1110100101#10 = .illegal .opUnassigned := by decide
theorem test_encode_update_31 : encode (.update 0x31#8) = 0x131#10 := by decide
theorem test_decodeTableWord_finalize : decodeTableWord 16 0x200 = some .finalize := by decide
theorem test_decodeTableWord_illegal : decodeTableWord 16 0x2FF = none := by decide
theorem test_decodeTableWord_too_wide : decodeTableWord 16 0x400 = none := by decide

/-! ### One step of each command -/

/-- V4 e: INIT keeps the error state and RESULT. -/
theorem test_init_keeps_error_state :
    answers (exec .init (st .final 0xB915 0xB915 true false .seqErr 0x141)) (st .accum 0xFFFF 0xB915 true false .seqErr 0x141)
      = true := by decide

/-- V4 b, on the XMODEM profile, through `withFetchWord` and `step`. -/
theorem test_init_xmodem_step :
    answers (step ((State.resetWith Cfg.xmodem).withFetchWord 16 0x000))
      (stateOn Cfg.xmodem .accum 0x0000 0x0000 false false .noFault 0x000) = true := by decide

/-- V5 f: a normal UPDATE after an earlier fault. -/
theorem test_update_after_fault :
    answers (exec (.update 0x32) (st .accum 0xC782 0x0000 true false .seqErr 0x141))
      (st .accum 0x3DBA 0x0000 true false .seqErr 0x141) = true := by decide

/-- V5 d: the first step after reset, UPDATE in UNINIT. -/
theorem test_update_uninit_faults :
    answers (step (State.reset.withFetchWord 16 0x131)) (st .uninit 0x0000 0x0000 true false .seqErr 0x131) = true := by
  decide

/-- P9: FINALIZE with bit inversion and byte swap. -/
theorem test_finalize_transform :
    answers (exec .finalize (stateOn { xorOut := 0xFFFF, swapOut := true } .accum 0x29B1 0x0000 false false .noFault 0x000))
      (stateOn { xorOut := 0xFFFF, swapOut := true } .final 0x29B1 0x4ED6 false false .noFault 0x000) = true := by decide

/-- V8 e: a second FINALIZE. -/
theorem test_finalize_twice_faults :
    answers (exec .finalize (st .final 0xB915 0xB915 false false .noFault 0x000))
      (st .final 0xB915 0xB915 true false .seqErr 0x200) = true := by decide

/-- V13 c: the second fault of the other cause sets its flag only. -/
theorem test_illegal_keeps_first_record :
    after (st .uninit 0x0000 0x0000 true false .seqErr 0x141) (.cmd 0x300)
      = st .uninit 0x0000 0x0000 true true .seqErr 0x141 := by decide

/-- V13 i: only Reset clears. -/
theorem test_reset_clears :
    after (st .final 0xB915 0xB915 true true .seqErr 0x141) .reset = State.reset := by decide

/-! ### Datapath, views, assembler, ports -/

/-- V5 (0x1234, 0x56) and V6. -/
theorem test_reduce_generic : reduce 0x1234 0x56 = 0x3C40 ∧ reduceBits 0x1234 0x56 = 0x3C40 := by decide

/-- V7: T[0xFF], and step 1 of `gen_entry(0xFF)`. -/
theorem test_table_FF : memRead 0xFF = 0x1EF0 ∧ bitStage 0xFF00 = 0xEE21 := by decide

/-- V8: the order of exclusive OR and swap. -/
theorem test_fin_order : fin { xorOut := 0x00FF, swapOut := true } 0x29B1 = 0x4E29 := by decide

/-- V1 and V11: the conformance vector, and a collision of messages that differ in several bytes (U13). -/
theorem test_crc_collision :
    crc Cfg.ccittFalse [0x00, 0x10, 0x21] = 0xFBAC ∧ crc Cfg.ccittFalse [0x01, 0x00, 0x00] = 0xFBAC := by decide

/-- V13: STATUS and FINFO after row f. -/
theorem test_status_finfo :
    statusView (st .accum 0xB915 0x0000 false true .illegalCmd 0x2FF) = 0x9
      ∧ finfoView (st .accum 0xB915 0x0000 false true .illegalCmd 0x2FF) = 0xAFF := by decide

/-- R48: comment, blanks, case, hexadecimal; P1 line 2. -/
theorem test_parse_upd :
    parseLine ['u', 'p', 'd', ' ', '0', 'x', '3', '1', ' ', ';', ' ', 'x'] = some [.upd 0x31] := by decide

/-- R49: `CRC "A;"`, the semicolon inside the text. -/
theorem test_parse_crc :
    parseLine ['C', 'R', 'C', ' ', dquote, 'A', ';', dquote] = some [.crc ['A', ';']] := by decide

/-- R49: `UPDB 1, 0x2`, and a line that is no command. -/
theorem test_parse_updb :
    parseLine ['U', 'P', 'D', 'B', ' ', '1', ',', ' ', '0', 'x', '2'] = some [.updb [1, 2]]
      ∧ parseLine ['N', 'O', 'P'] = none := by decide

/-- Log 14: a comma, a semicolon and a single quote as quoted bytes (codes 2C, 3B, 27 of ASCII), the last before a
comment. -/
theorem test_parse_quoted_bytes :
    parseLine ['U', 'P', 'D', 'B', ' ', squote, ',', squote, ',', squote, ';', squote] = some [.updb [0x2C, 0x3B]]
      ∧ parseLine ['U', 'P', 'D', ' ', squote, squote, squote, ' ', ';', ' ', 'x'] = some [.upd 0x27] := by decide

/-- Log 14, R8: a quoted character of code 128 is no byte, one of code 127 is. -/
theorem test_parse_quoted_ascii :
    parseByte [squote, Char.ofNat 128, squote] = none ∧ parseByte [squote, Char.ofNat 127, squote] = some 127 := by decide

/-- R48, R50, P2: a text of three lines, one a comment, and the states after its commands. -/
theorem test_assemble_and_trace :
    (assembleText [['I', 'N', 'I', 'T'], [';', ' ', 'x'], ['f', 'i', 'n']]).map (trace State.reset)
      = some [st .accum 0xFFFF 0x0000 false false .noFault 0x000, st .final 0xFFFF 0xFFFF false false .noFault 0x000] := by
  decide

/-- Part 4, edge 6: SEQ_ERR at the port, FINFO = 0x542. -/
theorem test_port_edge6 :
    (((PortState.mk (st .final 0xB915 0xB915 false false .noFault 0x000) none).edge ⟨false, true, 0x142⟩).outputs
      fun _ => false).finfo = 0x542 := by decide

/-- Part 4, edge 1: with `rst_i` = 1 the INIT is not accepted. -/
theorem test_port_edge1 : (PortState.resetWith {}).inputOf ⟨true, true, 0x000⟩ = [.reset] := by decide

/-- R30, R32: the definition gives the listing at a place other than the ones above (row 0xC8, column 6). -/
theorem test_table_CE : memRead 0xCE = 0x3882 ∧ tableListing[0xCE]? = some 0x3882 := by decide +kernel

/-! ### Witnesses: states and operands that meet the hypotheses of the statements, each clause at a boundary -/

theorem witness_DecodeEncodeAgree :
    opField 0x100 = 0b01 ∧ opField 0x1FF = 0b01 ∧ ((0x001 : CmdWord) ≠ 0x000 ∧ opField 0x001 ≠ 0b01 ∧ (0x001 : CmdWord) ≠ 0x200)
      ∧ ((0x3FF : CmdWord) ≠ 0x000 ∧ opField 0x3FF ≠ 0b01 ∧ (0x3FF : CmdWord) ≠ 0x200)
      ∧ Instr.wellFormed (.update 0xFF) = true ∧ decode 0x1FF = .instr (.update 0xFF) := by decide

theorem witness_IllegalWordsRaiseIllegalCmd :
    (State.reset.setInputs [.cmd 0x3FF]).inputs = [.cmd 0x3FF] ∧ decode 0x3FF = .illegal .opUnassigned
      ∧ decode 0x0FF = .illegal .initDataNonzero ∧ decode 0x201 = .illegal .finalizeDataNonzero := by decide

theorem witness_UpdateFoldsByte :
    (st .accum 0xFFFF 0x0000 false false .noFault 0x000).phase = .accum
      ∧ (st .accum 0xFFFF 0x0000 false false .noFault 0x000).acc = 0xFFFF
      ∧ State.reset.phase ≠ .accum ∧ (st .final 0x0000 0x0000 false false .noFault 0x000).phase ≠ .accum := by decide

theorem witness_FinalizeDeliversResult :
    (st .accum 0x29B1 0x0000 false false .noFault 0x000).cfg = Cfg.ccittFalse
      ∧ (st .accum 0x29B1 0x0000 false false .noFault 0x000).phase = .accum
      ∧ (st .accum 0x29B1 0x0000 false false .noFault 0x000).acc = 0x29B1 ∧ State.reset.phase ≠ .accum := by decide

theorem witness_FinalStateHoldsUntilInit :
    answers (exec .finalize (st .accum 0x29B1 0x0000 false false .noFault 0x000))
        (st .final 0x29B1 0x29B1 false false .noFault 0x000) = true
      ∧ (st .final 0x29B1 0x29B1 false false .noFault 0x000).phase = .final
      ∧ (∀ inp ∈ [Input.cmd 0x001, Input.cmd 0x3FF], ∃ w, inp = .cmd w ∧ w ≠ 0x000) := by
  refine ⟨by decide, by decide, fun inp h => ?_⟩
  simp only [List.mem_cons, List.not_mem_nil, or_false] at h
  rcases h with rfl | rfl
  · exact ⟨_, rfl, by decide⟩
  · exact ⟨_, rfl, by decide⟩

theorem witness_FinalizeOutOfSequenceKeepsResult :
    State.reset.phase = .uninit ∧ (st .final 0xB915 0xB915 false false .noFault 0x000).phase = .final
      ∧ resultMatchesAcc (st .final 0xB915 0xB915 false false .noFault 0x000) := by decide

theorem witness_CommandFrames :
    answers (exec (.update 0x31) (st .accum 0xFFFF 0x0000 false false .noFault 0x000))
        (st .accum 0xC782 0x0000 false false .noFault 0x000) = true
      ∧ answers (exec (.update 0x31) (st .uninit 0x0000 0x0000 false true .illegalCmd 0x300))
        (st .uninit 0x0000 0x0000 true true .illegalCmd 0x300) = true := by decide

theorem witness_TableProperties : memRead 0xFF = memRead 0xFF := rfl

theorem witness_BitStageWires : (1 ≤ 1 ∧ 1 ≤ 15 ∧ 1 ≠ 5 ∧ 1 ≠ 12) ∧ (1 ≤ 15 ∧ 15 ≤ 15 ∧ 15 ≠ 5 ∧ 15 ≠ 12) := by decide

theorem witness_ReduceIsLinearAndBijective : reduce 0xFFFF 0xFF = reduce 0xFFFF 0xFF := rfl

theorem witness_CommandsReadOneEntryAtMost :
    (∀ idx ∈ tableReads (.update 0x31) (st .accum 0xFFFF 0x0000 false false .noFault 0x000),
        memRead idx = (fun k => if k = 0xCE then 0x3882 else 0x0000) idx)
      ∧ memRead (tableIndex 0xFFFF 0x31) ≠ (fun _ => 0x0000 : Byte → Word16) (tableIndex 0xFFFF 0x31)
      ∧ tableReads (.update 0x31) State.reset = [] := by decide

theorem witness_FinTransform :
    Cfg.ccittFalse.swapOut = false ∧ Cfg.ccittFalse.xorOut = 0x0000
      ∧ (Cfg.mk 0 0xFFFF false 1 0).xorOut = 0xFFFF ∧ (Cfg.mk 0 0xFFFF false 1 0).swapOut = false
      ∧ (Cfg.mk 0 0x0000 true 1 0).xorOut = 0x0000 ∧ (Cfg.mk 0 0x0000 true 1 0).swapOut = true
      ∧ (Cfg.mk 0 0xFFFF true 1 0).xorOut = 0xFFFF ∧ (Cfg.mk 0 0xFFFF true 1 0).swapOut = true
      ∧ (Cfg.mk 0 0x00FF true 1 0).xorOut = 0x00FF ∧ (Cfg.mk 0 0x00FF true 1 0).swapOut = true := by decide

/-- For WhichWordsFault, FaultingCommandIsDropped, OnlyResetClearsErrors and InitRecoversAfterFault: words that fault in
each way, and one that does not. -/
theorem witness_WhichWordsFault :
    faultOf 0x300 State.reset = .illegalCmd ∧ faultOf 0x1FF State.reset = .seqErr
      ∧ faultOf 0x200 (st .final 0x0000 0x0000 false false .noFault 0x000) = .seqErr ∧ faultOf 0x000 State.reset = .noFault := by
  decide

theorem witness_PriorityOfDecodeCheckAndReset :
    decode 0x201 = .illegal .finalizeDataNonzero ∧ decode 0x200 = .instr .finalize
      ∧ (Pins.mk true true 0x000).rst = true := by decide

theorem witness_RepeatedFaultKeepsFirstRecord :
    (st .uninit 0x0000 0x0000 true false .seqErr 0x200).fcause ≠ .noFault := by decide

theorem witness_OnlyResetClearsErrors :
    (st .uninit 0x0000 0x0000 true true .seqErr 0x200).errSeq = true
      ∧ (st .uninit 0x0000 0x0000 true true .seqErr 0x200).errIll = true
      ∧ (st .uninit 0x0000 0x0000 true true .seqErr 0x200).fcause ≠ .noFault := by decide

theorem witness_InSequenceStreamsRaiseNoFault : (st .accum 0x0000 0x0000 false false .noFault 0x000).phase = .accum := by decide

theorem witness_TrustedResultMeansNoFault :
    faultFree State.reset = true ∧ faultFree (st .uninit 0x0000 0x0000 false true .illegalCmd 0x300) = false
      ∧ (∀ inp ∈ [Input.cmd 0x000, Input.cmd 0x3FF], inp ≠ .reset) := by decide

theorem witness_ResetInputGivesResetState :
    (State.reset.setInputs [.reset, .cmd 0x000]).inputs = [.reset, .cmd 0x000] ∧ (Pins.mk true false 0x3FF).rst = true
      ∧ (after State.reset (.cmd 0x3FF)).phase = .uninit := by decide

theorem witness_ResetTouchesRegistersOnly :
    (Pins.mk true true 0x000).rst = true ∧ (∀ inp ∈ [Input.cmd 0x000], inp ≠ .reset)
      ∧ errLevel (st .uninit 0x0000 0x0000 true false .seqErr 0x200) = true := by decide

theorem witness_StepRunsNextInput :
    (State.reset.setInputs [.cmd 0x1FF]).inputs = [.cmd 0x1FF] ∧ decode 0x1FF = .instr (.update 0xFF)
      ∧ decode 0x3FF = .illegal .opUnassigned ∧ (State.reset.setInputs [.reset]).inputs = [.reset]
      ∧ State.reset.inputs = [] := by decide

theorem witness_StepRefinesCommandLevel :
    decode 0x001 = .illegal .initDataNonzero ∧ decode 0x000 = .instr .init ∧ decode 0x100 = .instr (.update 0x00)
      ∧ decode 0x200 = .instr .finalize := by decide

theorem witness_PhaseTransitionTable :
    State.reset.phase = .uninit ∧ (st .accum 0x0000 0x0000 false false .noFault 0x000).phase = .accum
      ∧ (st .final 0x0000 0x0000 false false .noFault 0x000).phase = .final ∧ decode 0x2FF = .illegal .finalizeDataNonzero := by
  decide

theorem witness_EveryStepKeepsBlockInv :
    BlockInv (State.reset.withFetchWord 16 0x3FF)
      ∧ answers (step (State.reset.withFetchWord 16 0x3FF)) (st .uninit 0x0000 0x0000 false true .illegalCmd 0x3FF) = true := by
  decide

theorem witness_StatusAndFinfoViews : faultRecordConsistent (st .final 0xB915 0xB915 true true .seqErr 0x1FF) := by decide

theorem witness_EmptyMessageChecksum :
    ((Cfg.mk 0xFFFF 0xFFFF false 1 0).initValue = 0xFFFF ∧ (Cfg.mk 0xFFFF 0xFFFF false 1 0).xorOut = 0xFFFF
        ∧ (Cfg.mk 0xFFFF 0xFFFF false 1 0).swapOut = false)
      ∧ ((Cfg.mk 0x0000 0xFFFF false 1 0).initValue = 0x0000 ∧ (Cfg.mk 0x0000 0xFFFF false 1 0).xorOut = 0xFFFF
        ∧ (Cfg.mk 0x0000 0xFFFF false 1 0).swapOut = false) := by decide

theorem witness_ResultDependsOnMessageAndVariantOnly :
    (st .final 0xB915 0xB915 true true .seqErr 0x1FF).cfg.initValue = (State.resetWith { pipeStages := 3 }).cfg.initValue
      ∧ (st .final 0xB915 0xB915 true true .seqErr 0x1FF).cfg.xorOut = (State.resetWith { pipeStages := 3 }).cfg.xorOut
      ∧ (st .final 0xB915 0xB915 true true .seqErr 0x1FF).cfg.swapOut = (State.resetWith { pipeStages := 3 }).cfg.swapOut := by
  decide

theorem witness_SingleByteChangeChangesChecksum : (0x00 : Byte) ≠ 0xFF := by decide

/-- R75 with V11: "123" and "023" differ in one byte, the colliding messages of V11 in three, and
messages of different length in no single byte. -/
theorem witness_OneByteChangeShowsInResult :
    differInOneByte [0x31, 0x32, 0x33] [0x30, 0x32, 0x33] = true ∧ differInOneByte [0x00] [0xFF] = true
      ∧ differInOneByte [0x00, 0x10, 0x21] [0x01, 0x00, 0x00] = false ∧ differInOneByte [0x31] [0x31, 0x32] = false
      ∧ differInOneByte [0x31] [0x31] = false ∧ State.reset.cfg = (after State.reset (.cmd 0x3FF)).cfg := by decide

theorem witness_ResidueIsZero : Cfg.ccittFalse.xorOut = 0x0000 ∧ Cfg.ccittFalse.swapOut = false := by decide

theorem witness_TableReadoutThroughPort :
    (State.resetWith Cfg.xmodem).cfg.initValue = 0x0000 ∧ State.reset.cfg.initValue = 0xFFFF := by decide

theorem witness_HostReadingsByPhase : State.reset.phase = .uninit := by decide

/-- A command in flight in a block with two pipeline stages. -/
def busy : PortState := ⟨State.resetWith { pipeStages := 2 }, some ⟨0x000, 2⟩⟩

/-- An ACCUM state; idle edges put between two commands of a block with a pipeline stage, accepted inputs the same; a
moment with nothing in flight; a non-empty second burst. -/
theorem witness_SplittingMessagesChangesNothing :
    (st .accum 0xFFFF 0x0000 false false .noFault 0x000).phase = .accum
      ∧ (∀ pins ∈ [Pins.mk false false 0x3FF, Pins.mk false false 0x000], pins.rst = false ∧ pins.cmdValid = false)
      ∧ (PortState.resetWith { pipeStages := 1 }).acceptedInputs
          ([⟨false, true, 0x000⟩, ⟨false, false, 0x000⟩] ++ [⟨false, false, 0x3FF⟩, ⟨false, false, 0x000⟩]
            ++ [⟨false, true, 0x131⟩])
        = (PortState.resetWith { pipeStages := 1 }).acceptedInputs
          ([⟨false, true, 0x000⟩, ⟨false, false, 0x000⟩] ++ [⟨false, true, 0x131⟩])
      ∧ ((PortState.resetWith { pipeStages := 1 }).run [⟨false, true, 0x000⟩, ⟨false, false, 0x000⟩]).inFlight = none
      ∧ [(0xFF : Byte)] ≠ [] := by decide

theorem witness_PortInv : PortInv busy ∧ PortInv (PortState.resetWith {}) := by
  refine ⟨fun f h => ?_, fun f h => by simp [PortState.resetWith] at h⟩
  have : (⟨0x000, 2⟩ : InFlight) = f := by simpa [busy] using h
  subst this
  decide

/-- OutputsShowRegisters; its second clause needs `PortInv`, see `witness_PortInv`. -/
theorem witness_OutputsShowRegisters :
    (PortState.resetWith {}).inFlight = none ∧ faultRecordConsistent (PortState.resetWith {}).block
      ∧ (PortState.resetWith {}).block.cfg.pipeStages = 0 := by decide

theorem witness_PortRefinesCommandLevel :
    (PortState.resetWith {}).cmdReady false = true
      ∧ (PortState.resetWith {}).accepted ⟨false, true, 0x1FF⟩ = some 0x1FF
      ∧ (Pins.mk false true 0x1FF).rst = false ∧ busy.accepted ⟨false, true, 0x1FF⟩ = none := by decide

/-- Two blocks, with PIPE_STAGES 0 and 1, that accept the same inputs on different pin sequences. -/
theorem witness_PipeStagesAreInvisible :
    (PortState.resetWith {}).acceptedInputs [⟨false, true, 0x000⟩, ⟨false, true, 0x131⟩]
      = (PortState.resetWith { pipeStages := 1 }).acceptedInputs
          [⟨false, true, 0x000⟩, ⟨false, true, 0x131⟩, ⟨false, true, 0x131⟩, ⟨false, false, 0x000⟩]
      ∧ (PortState.resetWith { pipeStages := 1 }).cmdReady false = true := by decide

theorem witness_AcceptedCommandCompletesInBoundedTime :
    (PortState.resetWith { pipeStages := 1 }).accepted ⟨false, true, 0x000⟩ = some 0x000
      ∧ [Pins.mk false true 0x3FF].length = (PortState.resetWith { pipeStages := 1 }).block.cfg.pipeStages
      ∧ (∀ pins ∈ [Pins.mk false true 0x3FF], pins.rst = false)
      ∧ (PortState.resetWith {}).accepted ⟨false, true, 0x3FF⟩ = some 0x3FF
      ∧ ([] : List Pins).length = (PortState.resetWith {}).block.cfg.pipeStages := by decide

theorem witness_BlocksAreIndependent :
    (System.resetWith { nInst := 2 }).blocks[1]? = some (State.resetWith { nInst := 2 }) := by decide

theorem witness_AssemblerLines : 0 ≤ 255 ∧ 255 ≤ 255 ∧ 1023 < 1024 ∧ 255 < 256 := by decide

theorem witness_PseudoInstructionsExpand : ['A', Char.ofNat 127].all isAsciiChar = true := by decide

end Sys2Proof.Machine.Tests
end

section
/-! PROOFS. The timing parameters N_INST and PIPE_STAGES (00_scope.md R6, 70_reset_and_hazards.md R108): replacing them
commutes with every operation on the block. -/

namespace Sys2Proof.Machine

/-- The same block built with other timing parameters (R6). -/
def State.withTiming (n k : Nat) (s : State) : State :=
  { s with cfg := { s.cfg with nInst := n, pipeStages := k } }

namespace Laws

variable (n k : Nat)

/-- The fault action reads no timing parameter. -/
theorem takeFault_withTiming (c : FaultCause) (w : CmdWord) (s : State) :
    takeFault c w (s.withTiming n k) = (takeFault c w s).withTiming n k := by
  cases c <;> cases h : s.fcause <;> simp [takeFault, recordFirstFault, setErrFlag, State.withTiming, h]

/-- No input reads a timing parameter: in sequence a command reads ACC and the variant parameters only, otherwise it
takes a fault. -/
theorem after_withTiming (s : State) (inp : Input) :
    after (s.withTiming n k) inp = (after s inp).withTiming n k := by
  cases inp with
  | reset => rfl
  | cmd w =>
    cases hd : decode w with
    | illegal why => rw [after_illegal hd, after_illegal hd, takeFault_withTiming]
    | instr i =>
      obtain ⟨rfl, h⟩ | ⟨b, rfl, hp, h⟩ | ⟨rfl, hp, h⟩ | ⟨hi, hp, h⟩ := exec_cases i s <;> rw [after_legal hd h]
      · rw [after_legal hd (exec_init _)]; rfl
      · rw [after_legal hd (exec_update_accum (s := s.withTiming n k) b hp)]; rfl
      · rw [after_legal hd (exec_finalize_accum (s := s.withTiming n k) hp)]; rfl
      · rw [after_legal hd (exec_outOfSequence (s := s.withTiming n k) hi hp), takeFault_withTiming]

/-- No run reads a timing parameter. -/
theorem runInputs_withTiming (s : State) (l : List Input) :
    runInputs (s.withTiming n k) l = (runInputs s l).withTiming n k := by
  induction l generalizing s with
  | nil => rfl
  | cons inp l ih => rw [runInputs_cons, runInputs_cons, after_withTiming, ih]

/-- No run writes Cfg. -/
@[simp] theorem runInputs_cfg (s : State) (l : List Input) : (runInputs s l).cfg = s.cfg := by
  induction l generalizing s with
  | nil => rfl
  | cons inp l ih => rw [runInputs_cons, ih, after_cfg]

/-- Settles O50, from the two run lemmas: Cfg is constant along a run, and replacing the timing parameters commutes
with a run. -/
theorem timingParametersAreUnread : Obligations.TimingParametersAreUnread := by
  intro s l n k
  refine ⟨runInputs_cfg s l, ?_⟩
  simpa only [State.withTiming, runInputs_cfg] using runInputs_withTiming n k s l

end Laws
end Sys2Proof.Machine
end

section
/-! PROOFS. What a command word does, by the fault it raises (60_exceptions.md R83 to R87): the fault action for the cause
`faultOf` names, or the effect of a command in sequence. -/

namespace Sys2Proof.Machine.Laws

/-- Each legal command has exactly one word (R47). -/
theorem encode_of_decode {w : CmdWord} {i : Instr} (h : decode w = .instr i) : encode i = w := by
  obtain ⟨hw, hd⟩ | ⟨hop, hd⟩ | ⟨hw, hd⟩ | ⟨-, -, -, hd⟩ := Sys2Proof.Laws.decode_cases w <;> rw [hd] at h <;> cases h
  · exact hw.symm
  · rw [encode, ← hop, Sys2Proof.Laws.word_fields]
  · exact hw.symm

theorem faultOf_illegal {w : CmdWord} {why : IllegalWord} (s : State) (hd : decode w = .illegal why) :
    faultOf w s = .illegalCmd := by simp [faultOf, hd]

theorem faultOf_init {w : CmdWord} (s : State) (hd : decode w = .instr .init) : faultOf w s = .noFault := by
  simp [faultOf, hd]

theorem faultOf_inSequence {w : CmdWord} {i : Instr} {s : State} (hd : decode w = .instr i) (hp : s.phase = .accum) :
    faultOf w s = .noFault := by cases i <;> simp [faultOf, hd, hp]

theorem faultOf_outOfSequence {w : CmdWord} {i : Instr} {s : State} (hd : decode w = .instr i) (hi : i ≠ .init)
    (hp : s.phase ≠ .accum) : faultOf w s = .seqErr := by
  cases i with
  | init => exact absurd rfl hi
  | update b => simp [faultOf, hd, hp]
  | finalize => simp [faultOf, hd, hp]

/-- What one command word does: INIT, UPDATE or FINALIZE in sequence, SEQ_ERR for a legal word other than INIT's out of
sequence, ILLEGAL_CMD for an illegal word; nothing else is possible. -/
theorem after_word_cases (s : State) (w : CmdWord) :
    (faultOf w s = .noFault ∧ after s (.cmd w) = (s.setAcc s.cfg.initValue).setPhase .accum)
    ∨ (∃ b, faultOf w s = .noFault ∧ s.phase = .accum ∧ after s (.cmd w) = s.setAcc (reduce s.acc b))
    ∨ (faultOf w s = .noFault ∧ s.phase = .accum
        ∧ after s (.cmd w) = (s.setResult (fin s.cfg s.acc)).setPhase .final)
    ∨ (faultOf w s = .seqErr ∧ isLegal w = true ∧ w ≠ encode .init ∧ after s (.cmd w) = takeFault .seqErr w s)
    ∨ (faultOf w s = .illegalCmd ∧ isLegal w = false ∧ after s (.cmd w) = takeFault .illegalCmd w s) := by
  cases hd : decode w with
  | illegal why =>
    exact .inr (.inr (.inr (.inr ⟨faultOf_illegal s hd, by simp [isLegal, hd, Decoded.instr?], after_illegal hd⟩)))
  | instr i =>
    obtain ⟨rfl, he⟩ | ⟨b, rfl, hp, he⟩ | ⟨rfl, hp, he⟩ | ⟨hi, hp, he⟩ := exec_cases i s
    · exact .inl ⟨faultOf_init s hd, after_legal hd he⟩
    · exact .inr (.inl ⟨b, faultOf_inSequence hd hp, hp, after_legal hd he⟩)
    · exact .inr (.inr (.inl ⟨faultOf_inSequence hd hp, hp, after_legal hd he⟩))
    · have hw : w ≠ encode .init := fun h => hi (by rw [h] at hd; cases hd; rfl)
      rw [encode_of_decode hd] at he
      exact .inr (.inr (.inr (.inl
        ⟨faultOf_outOfSequence hd hi hp, by simp [isLegal, hd, Decoded.instr?], hw, after_legal hd he⟩)))

/-- A word that does not fault leaves the fault record (R91). -/
theorem sameFaultRecord_after_of_noFault {s : State} {w : CmdWord} (h : faultOf w s = .noFault) :
    sameFaultRecord s (after s (.cmd w)) := by
  obtain ⟨-, ha⟩ | ⟨b, -, -, ha⟩ | ⟨-, -, ha⟩ | ⟨hf, -⟩ | ⟨hf, -⟩ := after_word_cases s w
  · rw [ha]; exact ⟨rfl, rfl, rfl, rfl⟩
  · rw [ha]; exact ⟨rfl, rfl, rfl, rfl⟩
  · rw [ha]; exact ⟨rfl, rfl, rfl, rfl⟩
  · rw [h] at hf; cases hf
  · rw [h] at hf; cases hf

/-- A word that faults has the fault action for its cause and no other effect (R86, R87). -/
theorem after_of_fault {s : State} {w : CmdWord} (h : faultOf w s ≠ .noFault) :
    after s (.cmd w) = takeFault (faultOf w s) w s := by
  obtain ⟨hf, -⟩ | ⟨b, hf, -⟩ | ⟨hf, -⟩ | ⟨hf, -, -, ha⟩ | ⟨hf, -, ha⟩ := after_word_cases s w
  · exact absurd hf h
  · exact absurd hf h
  · exact absurd hf h
  · rw [hf, ha]
  · rw [hf, ha]

/-- Settles O12, from the four things `exec` can do and the field lemmas of each. -/
theorem commandFrames : Obligations.CommandFrames := by
  intro i s t h
  obtain ⟨rfl, he⟩ | ⟨b, rfl, hp, he⟩ | ⟨rfl, hp, he⟩ | ⟨hi, hp, he⟩ := exec_cases i s <;> rw [he] at h <;> cases h
  · simp [sameFaultRecord]
  · simp [hp, sameFaultRecord]
  · simp [hp, sameFaultRecord]
  · simp +contextual [hi, hp]

end Sys2Proof.Machine.Laws
end

section
/-! PROOFS. The invariant of the block (10_state.md R20, R26): it holds at reset, and every operation keeps it. -/

namespace Sys2Proof.Machine.Laws

/-- Settles O30, field by field from the definition of the reset state. -/
theorem resetValues : Obligations.ResetValues :=
  fun _ => ⟨rfl, rfl, rfl, rfl, rfl, rfl, rfl, rfl, rfl, rfl, rfl⟩

theorem blockInv_resetWith (c : Cfg) : BlockInv (State.resetWith c) := by
  simp [BlockInv, faultRecordConsistent, resultMatchesAcc, uninitHoldsResetData, State.resetWith]

/-- Settles O38: no fault is recorded, PHASE is UNINIT, and the data registers are zero. -/
theorem blockInvAtReset : Obligations.BlockInvAtReset := blockInv_resetWith

/-- The invariant does not speak of what the host has still to present. -/
theorem blockInv_setInputs (s : State) (l : List Input) : BlockInv (s.setInputs l) ↔ BlockInv s := Iff.rfl

theorem blockInv_applyReset (s : State) : BlockInv (applyReset s) :=
  (blockInv_setInputs _ _).mpr (blockInv_resetWith s.cfg)

/-- SEQ_ERR, raised by the word of an UPDATE or FINALIZE, keeps the record consistent. -/
theorem faultRecordConsistent_takeFault_seqErr {s : State} {w : CmdWord} (hl : isLegal w = true)
    (hw : w ≠ encode .init) (h : faultRecordConsistent s) : faultRecordConsistent (takeFault .seqErr w s) := by
  cases hc : s.fcause <;> simp_all [faultRecordConsistent]

/-- ILLEGAL_CMD, raised by an illegal word, keeps the record consistent. -/
theorem faultRecordConsistent_takeFault_illegalCmd {s : State} {w : CmdWord} (hl : isLegal w = false)
    (h : faultRecordConsistent s) : faultRecordConsistent (takeFault .illegalCmd w s) := by
  cases hc : s.fcause <;> simp_all [faultRecordConsistent]

/-- The fault action touches no data register, so only the record has to be checked. -/
theorem blockInv_takeFault {s : State} (cause : FaultCause) (w : CmdWord) (h : BlockInv s)
    (hr : faultRecordConsistent (takeFault cause w s)) : BlockInv (takeFault cause w s) := by
  obtain ⟨-, hres, hun⟩ := h
  exact ⟨hr, by simpa [resultMatchesAcc] using hres, by simpa [uninitHoldsResetData] using hun⟩

/-- Every input keeps the invariant: INIT and UPDATE end in ACCUM, where only the record counts; FINALIZE makes RESULT
the transform of ACC; a fault leaves the data; Reset establishes it anew. -/
theorem blockInv_after {s : State} (h : BlockInv s) (inp : Input) : BlockInv (after s inp) := by
  have hr : faultRecordConsistent s := h.1
  cases inp with
  | reset => exact blockInv_applyReset s
  | cmd w =>
    obtain ⟨-, ha⟩ | ⟨b, -, hp, ha⟩ | ⟨-, -, ha⟩ | ⟨-, hl, hw, ha⟩ | ⟨-, hl, ha⟩ := after_word_cases s w <;> rw [ha]
    · exact ⟨hr, by simp [resultMatchesAcc], by simp [uninitHoldsResetData]⟩
    · exact ⟨hr, by simp [resultMatchesAcc, hp], by simp [uninitHoldsResetData, hp]⟩
    · exact ⟨hr, by simp [resultMatchesAcc], by simp [uninitHoldsResetData]⟩
    · exact blockInv_takeFault _ w h (faultRecordConsistent_takeFault_seqErr hl hw hr)
    · exact blockInv_takeFault _ w h (faultRecordConsistent_takeFault_illegalCmd hl hr)

/-- Settles O39: a step is idle or takes one input, and every input keeps the invariant. -/
theorem everyStepKeepsBlockInv : Obligations.EveryStepKeepsBlockInv := by
  intro s t h hs
  cases hi : s.inputs with
  | nil =>
    rw [step_nil hi] at hs
    cases hs
    exact h
  | cons inp rest =>
    rw [step_cons hi] at hs
    cases hs
    exact blockInv_after ((blockInv_setInputs s rest).mpr h) inp

end Sys2Proof.Machine.Laws
end

section
/-! PROOFS. The error flags and the fault record (10_state.md R18, 60_exceptions.md R91): sticky under every word, and
read by no input. -/

namespace Sys2Proof.Machine

/-- Two blocks that differ at most in their fault record and in what the host has still to present. -/
structure SameData (s t : State) : Prop where
  cfg : s.cfg = t.cfg
  acc : s.acc = t.acc
  phase : s.phase = t.phase
  result : s.result = t.result

namespace Laws

theorem sameData_takeFault {s t : State} (h : SameData s t) (c : FaultCause) (w : CmdWord) :
    SameData (takeFault c w s) (takeFault c w t) := by
  obtain ⟨hc, ha, hp, hr⟩ := h
  constructor <;> simp [hc, ha, hp, hr]

/-- No input reads the fault record: the same command is in sequence on both blocks, and its effect is a function of the
data. -/
theorem sameData_after {s t : State} (h : SameData s t) (inp : Input) : SameData (after s inp) (after t inp) := by
  obtain ⟨hc, ha, hp, hr⟩ := h
  cases inp with
  | reset => exact ⟨by simp [hc], rfl, rfl, rfl⟩
  | cmd w =>
    cases hd : decode w with
    | illegal why => rw [after_illegal hd, after_illegal hd]; exact sameData_takeFault ⟨hc, ha, hp, hr⟩ _ w
    | instr i =>
      obtain ⟨rfl, he⟩ | ⟨b, rfl, hs, he⟩ | ⟨rfl, hs, he⟩ | ⟨hi, hs, he⟩ := exec_cases i s <;> rw [after_legal hd he]
      · rw [after_legal hd (exec_init t)]
        constructor <;> simp [hc, hr]
      · rw [after_legal hd (exec_update_accum b (hp ▸ hs))]
        constructor <;> simp [hc, ha, hp, hr]
      · rw [after_legal hd (exec_finalize_accum (hp ▸ hs))]
        constructor <;> simp [hc, ha]
      · rw [after_legal hd (exec_outOfSequence hi (hp ▸ hs))]
        exact sameData_takeFault ⟨hc, ha, hp, hr⟩ _ _

theorem sameData_runInputs {s t : State} (h : SameData s t) (l : List Input) :
    SameData (runInputs s l) (runInputs t l) := by
  induction l generalizing s t with
  | nil => exact h
  | cons inp l ih => exact ih (sameData_after h inp)

/-- ERR_SEQ after a word: what it was, or set by the word's own SEQ_ERR (R86). -/
theorem after_word_errSeq (s : State) (w : CmdWord) :
    (after s (.cmd w)).errSeq = (s.errSeq || decide (faultOf w s = .seqErr)) := by
  by_cases hf : faultOf w s = .noFault
  · obtain ⟨hseq, -⟩ := sameFaultRecord_after_of_noFault hf
    simp [hseq, hf]
  · rw [after_of_fault hf, takeFault_errSeq]

/-- ERR_ILL after a word: what it was, or set by the word's own ILLEGAL_CMD (R86). -/
theorem after_word_errIll (s : State) (w : CmdWord) :
    (after s (.cmd w)).errIll = (s.errIll || decide (faultOf w s = .illegalCmd)) := by
  by_cases hf : faultOf w s = .noFault
  · obtain ⟨-, hill, -⟩ := sameFaultRecord_after_of_noFault hf
    simp [hill, hf]
  · rw [after_of_fault hf, takeFault_errIll]

/-- Once a fault is recorded, every word leaves cause and word of the record (R20). -/
theorem after_word_record {s : State} (h : s.fcause ≠ .noFault) (w : CmdWord) :
    (after s (.cmd w)).fcause = s.fcause ∧ (after s (.cmd w)).fcmd = s.fcmd := by
  by_cases hf : faultOf w s = .noFault
  · obtain ⟨-, -, hc, hw⟩ := sameFaultRecord_after_of_noFault hf
    exact ⟨hc, hw⟩
  · rw [after_of_fault hf]
    simp [h]

/-- Settles O26: each flag is the old one or its own cause, the record stays once made, Reset clears all four, and runs
of two blocks that differ in the fault record alone keep the same data. -/
theorem onlyResetClearsErrors : Obligations.OnlyResetClearsErrors := by
  refine ⟨fun s w => ⟨?_, ?_, fun h => after_word_record h w, sameFaultRecord_after_of_noFault, ?_, ?_⟩,
    fun s => ⟨rfl, rfl, rfl, rfl⟩, fun s l es ei c w => ?_⟩
  · intro h
    simp [after_word_errSeq, h]
  · intro h
    simp [after_word_errIll, h]
  · intro h
    simp [after_word_errSeq, after_word_errIll, h]
  · intro h
    simp [after_word_errSeq, after_word_errIll, h]
  · obtain ⟨-, hacc, hphase, hresult⟩ := sameData_runInputs
      (s := { s with errSeq := es, errIll := ei, fcause := c, fcmd := w }) (t := s) ⟨rfl, rfl, rfl, rfl⟩ l
    exact ⟨hacc, hphase, hresult⟩

end Laws
end Sys2Proof.Machine
end

section
/-! PROOFS. The views of the registers (10_state.md R19, R20, R25): STATUS, FINFO, `err_o`, and the output ports. -/

namespace Sys2Proof.Machine.Laws

theorem phase_toBits_ne_three (p : Phase) : p.toBits ≠ 0b11#2 := by cases p <;> decide

theorem faultCause_toBits_ne_three (c : FaultCause) : c.toBits ≠ 3#2 := by cases c <;> decide

theorem faultCause_toBits_eq_zero (c : FaultCause) : c.toBits = 0#2 ↔ c = .noFault := by cases c <;> decide

/-- Bit `i` of STATUS: PHASE below, then ERR_SEQ, then ERR_ILL (R19). -/
theorem getLsbD_statusView (s : State) (i : Nat) :
    (statusView s).getLsbD i =
      if i < 3 then (if i < 2 then s.phase.toBits.getLsbD i else (BitVec.ofBool s.errSeq).getLsbD (i - 2))
      else (BitVec.ofBool s.errIll).getLsbD (i - 3) := by
  rw [statusView, BitVec.getLsbD_cast, BitVec.getLsbD_append, BitVec.getLsbD_append]

/-- Bit `i` of FINFO: FCMD below, FCAUSE above (R20). -/
theorem getLsbD_finfoView (s : State) (i : Nat) :
    (finfoView s).getLsbD i = if i < 10 then s.fcmd.getLsbD i else s.fcause.toBits.getLsbD (i - 10) := by
  rw [finfoView, BitVec.getLsbD_cast, BitVec.getLsbD_append]

/-- `err_o` says that a fault is recorded (R20, R25). -/
theorem errLevel_iff {s : State} (h : faultRecordConsistent s) : errLevel s = true ↔ s.fcause ≠ .noFault := by
  obtain ⟨hno, hseq, hill⟩ := h
  cases hc : s.fcause with
  | noFault => simp [errLevel, hno hc]
  | seqErr => simp [errLevel, hseq hc]
  | illegalCmd => simp [errLevel, hill hc]

theorem statusView_phase (s : State) : (statusView s).extractLsb' 0 2 = s.phase.toBits := by
  apply BitVec.eq_of_getLsbD_eq
  intro i hi
  simp [getLsbD_statusView, hi, show i < 3 by omega]

theorem statusView_errSeq (s : State) : (statusView s).getLsbD 2 = s.errSeq := by
  rw [getLsbD_statusView]
  simp

theorem statusView_errIll (s : State) : (statusView s).getLsbD 3 = s.errIll := by
  rw [getLsbD_statusView]
  simp

theorem finfoView_fcmd (s : State) : (finfoView s).extractLsb' 0 10 = s.fcmd := by
  apply BitVec.eq_of_getLsbD_eq
  intro i hi
  simp [getLsbD_finfoView, hi]

theorem finfoView_fcause (s : State) : (finfoView s).extractLsb' 10 2 = s.fcause.toBits := by
  apply BitVec.eq_of_getLsbD_eq
  intro i hi
  simp [getLsbD_finfoView, hi]

/-- Settles O40, from the bits of the two views and from `errLevel_iff`. -/
theorem statusAndFinfoViews : Obligations.StatusAndFinfoViews := by
  intro s
  refine ⟨statusView_phase s, statusView_errSeq s, statusView_errIll s, finfoView_fcmd s, finfoView_fcause s,
    phase_toBits_ne_three _, faultCause_toBits_ne_three _, fun h => ?_⟩
  rw [errLevel_iff h, Ne, Ne, faultCause_toBits_eq_zero]

theorem resultValid_iff (s : State) : resultValid s = true ↔ s.phase = .final := by simp [resultValid]

/-- With no command in flight the outputs are those of the registers, under every free choice (R25, R108). -/
theorem outputs_of_inFlight_none {p : PortState} (showsAfter : OutPort → Bool) (h : p.inFlight = none) :
    p.outputs showsAfter = outputs p.block := by
  simp only [PortState.outputs, shown_settled p showsAfter _ h, outputs]

/-- Without pipeline stages no command is ever in flight (R106). -/
theorem inFlight_none_of_pipeStages_zero {p : PortState} (h : PortInv p) (hk : p.block.cfg.pipeStages = 0) :
    p.inFlight = none := by
  cases hf : p.inFlight with
  | none => rfl
  | some f =>
    obtain ⟨hlow, hhigh⟩ := h f hf
    omega

theorem cmdReady_of_pipeStages_zero {p : PortState} (h : PortInv p) (hk : p.block.cfg.pipeStages = 0) :
    p.cmdReady false = true := by simp [PortState.cmdReady, inFlight_none_of_pipeStages_zero h hk]

/-- Settles O52: the outputs are `outputs` of the registers, whose fields are the table of R25. -/
theorem outputsShowRegisters : Obligations.OutputsShowRegisters := by
  refine ⟨fun p showsAfter h => ?_, fun p => cmdReady_of_pipeStages_zero⟩
  rw [outputs_of_inFlight_none showsAfter h]
  exact ⟨rfl, rfl, resultValid_iff p.block, rfl, rfl, rfl, rfl, errLevel_iff, rfl⟩

end Sys2Proof.Machine.Laws
end

section
/-! PROOFS. What a checksum stream does to the registers (43_streams_and_laws.md R69), and what the host may take from
the data outputs along it (10_state.md R26). -/

namespace Sys2Proof.Machine.Laws

/-- INIT and one UPDATE per byte, from any state. -/
theorem runInputs_init_updates (s : State) (m : List Byte) :
    runInputs s (Input.ofInstr .init :: updates m) = (s.setAcc (accOf s.cfg m)).setPhase .accum := by
  rw [runInputs_cons, after_init, runInputs_updates _ m rfl]
  rfl

/-- The whole stream of a message, from any state: ACC, RESULT and PHASE change, nothing else. -/
theorem runInputs_checksumStream (s : State) (m : List Byte) :
    runInputs s (checksumStream m) =
      ((s.setAcc (accOf s.cfg m)).setResult (crc s.cfg m)).setPhase .final := by
  rw [checksumStream, ← List.cons_append, runInputs_append, runInputs_init_updates, runInputs_cons,
    after_finalize rfl]
  rfl

/-- Settles O49, from the registers after INIT and the updates and after the whole stream. -/
theorem hostReadingsByPhase : Obligations.HostReadingsByPhase := by
  refine ⟨fun s h => ?_, fun s m => ?_, fun s m => ?_⟩
  · simp [hostChecksumState, hostResult, resultValid, h]
  · rw [runInputs_init_updates]
    exact ⟨rfl, rfl, rfl, rfl⟩
  · rw [runInputs_checksumStream]
    exact ⟨rfl, rfl, rfl⟩

end Sys2Proof.Machine.Laws
end

section
/-! PROOFS. Which TABLE entries a command depends on (20_memory.md R36, 41_update.md R62): UPDATE in sequence on exactly
one, every other command on none. -/

namespace Sys2Proof.Machine.Laws

/-- The hardware's commands are those on the table of R31. -/
theorem execWithRom_memRead (i : Instr) (s : State) : execWithRom memRead i s = exec i s := by cases i <;> rfl

theorem execWithRom_update_accum (rom : Byte → Word16) {s : State} (b : Byte) (h : s.phase = .accum) :
    execWithRom rom (.update b) s = .next (s.setAcc (reduceWith rom s.acc b)) :=
  whenAccumulating_accum (i := .update b) (e := fun t => t.setAcc (reduceWith rom t.acc b)) h

theorem execWithRom_update_outOfSequence (rom : Byte → Word16) {s : State} (b : Byte) (h : s.phase ≠ .accum) :
    execWithRom rom (.update b) s = .next (takeFault .seqErr (encode (.update b)) s) :=
  whenAccumulating_outOfSequence (i := .update b) (e := fun t => t.setAcc (reduceWith rom t.acc b)) h

theorem tableReads_update_accum {s : State} (b : Byte) (h : s.phase = .accum) :
    tableReads (.update b) s = [tableIndex s.acc b] := if_pos h

theorem tableReads_update_outOfSequence {s : State} (b : Byte) (h : s.phase ≠ .accum) :
    tableReads (.update b) s = [] := if_neg h

/-- `reduce` determines the entry it read: the two tables enter by exclusive OR at one index (R55). -/
theorem reduceWith_eq_iff (rom rom' : Byte → Word16) (a : Word16) (b : Byte) :
    reduceWith rom a b = reduceWith rom' a b ↔ rom (tableIndex a b) = rom' (tableIndex a b) :=
  BitVec.xor_right_inj (a <<< 8)

/-- UPDATE in sequence has the same outcome on two tables exactly if they agree on its one entry. -/
theorem execWithRom_update_accum_eq_iff (rom rom' : Byte → Word16) {s : State} (b : Byte) (h : s.phase = .accum) :
    execWithRom rom (.update b) s = execWithRom rom' (.update b) s ↔
      rom (tableIndex s.acc b) = rom' (tableIndex s.acc b) := by
  rw [execWithRom_update_accum rom b h, execWithRom_update_accum rom' b h, ← reduceWith_eq_iff]
  constructor
  · intro ho
    injection ho with hs
    exact congrArg State.acc hs
  · intro hr
    rw [hr]

/-- Tables that agree on the entries a command reads give it the same outcome (R36). -/
theorem execWithRom_congr {rom rom' : Byte → Word16} {i : Instr} {s : State}
    (h : ∀ idx ∈ tableReads i s, rom idx = rom' idx) : execWithRom rom i s = execWithRom rom' i s := by
  cases i with
  | init => rfl
  | finalize => rfl
  | update b =>
    by_cases hp : s.phase = .accum
    · refine (execWithRom_update_accum_eq_iff rom rom' b hp).mpr (h _ ?_)
      rw [tableReads_update_accum b hp]
      exact List.mem_singleton_self _
    · rw [execWithRom_update_outOfSequence rom b hp, execWithRom_update_outOfSequence rom' b hp]

/-- Settles O19, from what UPDATE does on any table: its outcome determines the entry read, and the other commands have
no table in their outcome. -/
theorem commandsReadOneEntryAtMost : Obligations.CommandsReadOneEntryAtMost :=
  ⟨execWithRom_memRead,
    fun _ _ _ _ => execWithRom_congr,
    fun _ => tableReads_update_accum,
    fun rom rom' _ b hp hne ho => hne ((execWithRom_update_accum_eq_iff rom rom' b hp).mp ho),
    fun _ => tableReads_update_outOfSequence,
    fun _ => ⟨rfl, rfl⟩⟩

end Sys2Proof.Machine.Laws
end

section
/-! PROOFS. The contents of TABLE (20_memory.md R31 to R33, 43_streams_and_laws.md R76): the bit-serial form of its
entries, its listing, and that it is linear and injective, because one single-bit stage is (R58). -/

namespace Sys2Proof.Machine.Laws

theorem memRead_eq_reduceBits (i : Byte) : memRead i = reduceBits 0x0000#16 i := by
  rw [reduceBits, BitVec.zero_xor, memRead, genEntry]

/-- Entry `i` of R31 stands at position `i` of the listing (R32). -/
theorem tableListing_getElem? (i : Byte) : tableListing[i.toNat]? = some (memRead i) := by
  have hi : i.toNat < 256 := i.isLt
  rw [← tableListing_eq, List.getElem?_map, List.getElem?_range hi, Option.map_some, BitVec.ofNat_toNat,
    BitVec.setWidth_eq]

theorem tableListing_length : tableListing.length = 256 := by
  rw [← tableListing_eq, List.length_map, List.length_range]

/-- Settles O13, from the definition of R31 and from `tableListing_getElem?`. -/
theorem tableMatchesBitSerial : Obligations.TableMatchesBitSerial :=
  ⟨fun _ => rfl, memRead_eq_reduceBits, tableListing_length, tableListing_getElem?⟩

/-- Linearity over GF(2) of the table (R33). -/
theorem memRead_xor (i j : Byte) : memRead (i ^^^ j) = memRead i ^^^ memRead j :=
  calc memRead (i ^^^ j)
    _ = bitStages 8 (pair (i ^^^ j) (0x00#8 ^^^ 0x00#8)) := rfl
    _ = bitStages 8 (pair i 0x00#8 ^^^ pair j 0x00#8) := by rw [pair_xor]
    _ = memRead i ^^^ memRead j := bitStages_xor 8 _ _

/-- The bit shifted out of one stage comes back as its bit 0, since POLY is odd (R57). -/
theorem bitStage_getLsbD_zero (r : Word16) : (bitStage r).getLsbD 0 = r.getLsbD 15 := by
  rw [bitStage]
  cases r.getLsbD 15 <;> simp [poly]

/-- Only zero goes to zero: bit 0 of the result is the bit shifted out, and the others are then the bits of `r`. -/
theorem bitStage_eq_zero {r : Word16} (h : bitStage r = 0x0000#16) : r = 0x0000#16 := by
  have htop : r.getLsbD 15 = false := by rw [← bitStage_getLsbD_zero, h]; rfl
  have hshift : r <<< 1 = 0x0000#16 := by rwa [bitStage, htop, if_neg Bool.false_ne_true] at h
  apply BitVec.eq_of_getLsbD_eq
  intro i hi
  rw [BitVec.getLsbD_zero]
  by_cases hi15 : i = 15
  · rw [hi15, htop]
  · have hnext : (r <<< 1).getLsbD (i + 1) = r.getLsbD i := by
      rw [BitVec.getLsbD_shiftLeft, decide_eq_true (show i + 1 < 16 by omega), decide_eq_false (by omega),
        Nat.add_sub_cancel]
      rfl
    rw [← hnext, hshift, BitVec.getLsbD_zero]

/-- A linear map that sends only zero to zero is injective. -/
theorem bitStage_injective : Function.Injective bitStage := by
  intro a b h
  apply BitVec.xor_eq_zero_iff.mp
  apply bitStage_eq_zero
  rw [bitStage_xor, h, BitVec.xor_self]

theorem bitStages_injective (n : Nat) : Function.Injective (bitStages n) := by
  induction n with
  | zero => exact fun _ _ h => h
  | succ n ih => exact ih.comp bitStage_injective

/-- Distinct indices have distinct entries (R33). -/
theorem memRead_injective : Function.Injective memRead := by
  intro i j h
  have hpair : pair i 0x00#8 = pair j 0x00#8 := bitStages_injective 8 h
  simpa using congrArg hi hpair

/-- Settles O14: linearity and injectivity by `memRead_xor` and `memRead_injective`, the written-out
entries by evaluation. -/
theorem tableProperties : Obligations.TableProperties := by
  refine ⟨memRead_zero, ?_, rfl, memRead_xor, ?_, ?_, ?_, ?_, ?_, ?_, ?_, fun _ _ h => memRead_injective h⟩
  all_goals decide

end Sys2Proof.Machine.Laws
end

section
/-! PROOFS. The decoder by the two fields of a word (30_encoding.md R40, R41), and what follows from it: decode and
encode agree (R47), the rows of the opcode map (R42), and the three classes of illegal words (R44). -/

namespace Sys2Proof

/-- The fields of the words of an illegal class (R44). -/
def IllegalWord.Fields (op : BitVec 2) (data : Byte) : IllegalWord → Prop
  | .opUnassigned => op = 0b11#2
  | .initDataNonzero => op = 0b00#2 ∧ data ≠ 0x00#8
  | .finalizeDataNonzero => op = 0b10#2 ∧ data ≠ 0x00#8

end Sys2Proof

namespace Sys2Proof.Machine.Laws

open Sys2Proof.Laws

/-! ### A word and its fields -/

/-- A word is determined by its two fields (R40). -/
theorem eq_word_iff (w : CmdWord) (op : BitVec 2) (d : Byte) :
    w = word op d ↔ opField w = op ∧ dataField w = d := by
  constructor
  · rintro rfl
    exact ⟨opField_word op d, dataField_word op d⟩
  · rintro ⟨rfl, rfl⟩
    exact (word_fields w).symm

/-- A mask acts on the two fields apart. -/
theorem word_and_word (op op' : BitVec 2) (d d' : Byte) :
    word op d &&& word op' d' = word (op &&& op') (d &&& d') := BitVec.and_append

theorem toNat_word (op : BitVec 2) (d : Byte) : (word op d).toNat = op.toNat * 256 + d.toNat := by
  rw [word, BitVec.toNat_cast, BitVec.toNat_append, ← Nat.shiftLeft_add_eq_or_of_lt d.isLt, Nat.shiftLeft_eq]

theorem toNat_opField (w : CmdWord) : (opField w).toNat = w.toNat / 256 := by
  rw [opField, BitVec.extractLsb'_toNat, Nat.shiftRight_eq_div_pow]
  omega

theorem toNat_dataField (w : CmdWord) : (dataField w).toNat = w.toNat % 256 := by
  rw [dataField, BitVec.extractLsb'_toNat, Nat.shiftRight_zero]

theorem opField_ofNat_eq_iff {n : Nat} (h : n < 1024) (op : BitVec 2) :
    opField (BitVec.ofNat 10 n) = op ↔ n / 256 = op.toNat := by
  rw [← BitVec.toNat_inj, toNat_opField, BitVec.toNat_ofNat, Nat.mod_eq_of_lt h]

theorem dataField_ofNat_eq_iff {n : Nat} (h : n < 1024) (d : Byte) :
    dataField (BitVec.ofNat 10 n) = d ↔ n % 256 = d.toNat := by
  rw [← BitVec.toNat_inj, toNat_dataField, BitVec.toNat_ofNat, Nat.mod_eq_of_lt h]

/-! ### The decoder, one lemma per value of OP -/

theorem eq_init_word_iff (w : CmdWord) : w = 0x000#10 ↔ opField w = 0b00#2 ∧ dataField w = 0x00#8 :=
  eq_word_iff w 0b00#2 0x00#8

theorem eq_finalize_word_iff (w : CmdWord) : w = 0x200#10 ↔ opField w = 0b10#2 ∧ dataField w = 0x00#8 :=
  eq_word_iff w 0b10#2 0x00#8

theorem opField_cases (w : CmdWord) :
    opField w = 0b00#2 ∨ opField w = 0b01#2 ∨ opField w = 0b10#2 ∨ opField w = 0b11#2 :=
  (by decide : ∀ op : BitVec 2, op = 0b00#2 ∨ op = 0b01#2 ∨ op = 0b10#2 ∨ op = 0b11#2) (opField w)

theorem decode_op_init {w : CmdWord} (h : opField w = 0b00#2) :
    decode w = if dataField w = 0x00#8 then .instr .init else .illegal .initDataNonzero := by
  simp [decode, illegalClass, eq_init_word_iff, eq_finalize_word_iff, h]

theorem decode_op_update {w : CmdWord} (h : opField w = 0b01#2) : decode w = .instr (.update (dataField w)) := by
  simp [decode, eq_init_word_iff, h]

theorem decode_op_finalize {w : CmdWord} (h : opField w = 0b10#2) :
    decode w = if dataField w = 0x00#8 then .instr .finalize else .illegal .finalizeDataNonzero := by
  simp [decode, illegalClass, eq_init_word_iff, eq_finalize_word_iff, h]

theorem decode_op_unassigned {w : CmdWord} (h : opField w = 0b11#2) : decode w = .illegal .opUnassigned := by
  simp [decode, illegalClass, eq_init_word_iff, eq_finalize_word_iff, h]

/-! ### decode and encode agree (R47) -/

/-- The decoder undoes the encoder, on every command. -/
@[simp] theorem decode_encode (i : Instr) : decode (encode i) = .instr i := by
  cases i with
  | init => rfl
  | update b => exact decode_encode_update b
  | finalize => rfl

/-- A word decodes to a command exactly if it is that command's word. -/
theorem decode_eq_instr_iff (w : CmdWord) (i : Instr) : decode w = .instr i ↔ w = encode i := by
  constructor
  · exact fun h => (encode_of_decode h).symm
  · rintro rfl
    exact decode_encode i

/-- The encoding of UPDATE in numbers: 0x100 plus the byte. -/
theorem encode_update (b : Byte) : encode (.update b) = 0x100#10 + b.setWidth 10 := by
  apply BitVec.eq_of_toNat_eq
  rw [encode, toNat_word, BitVec.toNat_add, BitVec.toNat_setWidth]
  simp only [BitVec.toNat_ofNat]
  omega

/-- No word falls between the three commands and the illegal words. -/
theorem decode_illegal_of_ne {w : CmdWord} (hi : w ≠ 0x000#10) (hu : opField w ≠ 0b01#2) (hf : w ≠ 0x200#10) :
    ∃ why, decode w = .illegal why := by
  obtain ⟨h, -⟩ | ⟨h, -⟩ | ⟨h, -⟩ | ⟨-, -, -, h⟩ := decode_cases w
  · exact absurd h hi
  · exact absurd h hu
  · exact absurd h hf
  · exact ⟨_, h⟩

/-- Settles O1: the branches by the decoder's lemmas, the round trips by `decode_encode` and `encode_of_decode`. -/
theorem decodeEncodeAgree : Obligations.DecodeEncodeAgree := by
  refine ⟨?_, fun _ => decode_op_update, ?_, fun _ => decode_illegal_of_ne, rfl, encode_update, rfl,
    fun i _ => decode_encode i, fun _ _ => encode_of_decode⟩
  · rintro w rfl
    exact decode_encode .init
  · rintro w rfl
    exact decode_encode .finalize

/-! ### The illegal words (R44) -/

/-- The decoder answers a class exactly on the words with that class's fields. -/
theorem decode_eq_illegal_iff (w : CmdWord) (why : IllegalWord) :
    decode w = .illegal why ↔ why.Fields (opField w) (dataField w) := by
  obtain h | h | h | h := opField_cases w
  · rw [decode_op_init h]
    split <;> cases why <;> simp [IllegalWord.Fields, *]
  · rw [decode_op_update h]
    cases why <;> simp [IllegalWord.Fields, h]
  · rw [decode_op_finalize h]
    split <;> cases why <;> simp [IllegalWord.Fields, *]
  · rw [decode_op_unassigned h]
    cases why <;> simp [IllegalWord.Fields, h]

/-- The three classes together. -/
theorem decode_illegal_iff (w : CmdWord) : (∃ why, decode w = .illegal why) ↔
    opField w = 0b11#2 ∨ (opField w = 0b00#2 ∧ dataField w ≠ 0x00#8) ∨ (opField w = 0b10#2 ∧ dataField w ≠ 0x00#8) := by
  simp only [decode_eq_illegal_iff]
  constructor
  · rintro ⟨_ | _ | _, h⟩
    · exact .inl h
    · exact .inr (.inl h)
    · exact .inr (.inr h)
  · rintro (h | h | h)
    · exact ⟨.opUnassigned, h⟩
    · exact ⟨.initDataNonzero, h⟩
    · exact ⟨.finalizeDataNonzero, h⟩

/-- How many numbers below `n` pass a check: the size of any set that holds exactly these. -/
theorem length_filter_range {n : Nat} {p : Nat → Bool} (t : Finset Nat) (hn : ∀ k ∈ t, k < n)
    (h : ∀ k < n, p k = true ↔ k ∈ t) : ((List.range n).filter p).length = t.card := by
  rw [← List.toFinset_card_of_nodup (List.nodup_range.filter p)]
  congr 1
  ext k
  rw [List.mem_toFinset, List.mem_filter, List.mem_range]
  exact ⟨fun ⟨hk, hp⟩ => (h k hk).mp hp, fun hk => ⟨hn k hk, (h k (hn k hk)).mpr hk⟩⟩

/-- The numbers of an interval are counted by its length. -/
theorem length_filter_range_Ico {n lo hi : Nat} {p : Nat → Bool} (hn : hi ≤ n)
    (h : ∀ k < n, p k = true ↔ lo ≤ k ∧ k < hi) : ((List.range n).filter p).length = hi - lo := by
  rw [length_filter_range (Finset.Ico lo hi) (fun k hk => (Finset.mem_Ico.mp hk).2.trans_le hn)
    (fun k hk => (h k hk).trans Finset.mem_Ico.symm), Nat.card_Ico]

/-- The words 0x300 to 0x3FF (R44). -/
theorem count_opUnassigned :
    ((List.range 1024).filter fun n => decide (decode (BitVec.ofNat 10 n) = .illegal .opUnassigned)).length = 256 := by
  refine length_filter_range_Ico (lo := 0x300) (hi := 0x400) (by decide) fun k hk => ?_
  rw [decide_eq_true_iff, decode_eq_illegal_iff, IllegalWord.Fields, opField_ofNat_eq_iff hk, BitVec.toNat_ofNat]
  omega

/-- The words 0x001 to 0x0FF (R44). -/
theorem count_initDataNonzero :
    ((List.range 1024).filter fun n => decide (decode (BitVec.ofNat 10 n) = .illegal .initDataNonzero)).length = 255 := by
  refine length_filter_range_Ico (lo := 0x001) (hi := 0x100) (by decide) fun k hk => ?_
  rw [decide_eq_true_iff, decode_eq_illegal_iff, IllegalWord.Fields, opField_ofNat_eq_iff hk, Ne,
    dataField_ofNat_eq_iff hk, BitVec.toNat_ofNat, BitVec.toNat_ofNat]
  omega

/-- The words 0x201 to 0x2FF (R44). -/
theorem count_finalizeDataNonzero :
    ((List.range 1024).filter fun n => decide (decode (BitVec.ofNat 10 n) = .illegal .finalizeDataNonzero)).length
      = 255 := by
  refine length_filter_range_Ico (lo := 0x201) (hi := 0x300) (by decide) fun k hk => ?_
  rw [decide_eq_true_iff, decode_eq_illegal_iff, IllegalWord.Fields, opField_ofNat_eq_iff hk, Ne,
    dataField_ofNat_eq_iff hk, BitVec.toNat_ofNat, BitVec.toNat_ofNat]
  omega

/-- The fault action of an illegal word as one record (R86). -/
theorem takeFault_illegalCmd_eq (w : CmdWord) (s : State) :
    takeFault .illegalCmd w s = { s with
      errIll := true
      fcause := if s.fcause = .noFault then .illegalCmd else s.fcause
      fcmd := if s.fcause = .noFault then w else s.fcmd } := by
  cases h : s.fcause <;> simp [takeFault, recordFirstFault, setErrFlag, h]

/-- Settles O3: the classes and their sizes by the fields, the step by the fault action it takes. -/
theorem illegalWordsRaiseIllegalCmd : Obligations.IllegalWordsRaiseIllegalCmd := by
  refine ⟨decode_illegal_iff, count_opUnassigned, count_initDataNonzero, count_finalizeDataNonzero, ?_⟩
  intro s w why rest hin hd
  rw [step_cons hin, after_illegal hd, takeFault_illegalCmd_eq]
  rfl

/-! ### The rows of the opcode map (R42) -/

theorem decode_eq_update_iff (w : CmdWord) : (∃ b, decode w = .instr (.update b)) ↔ opField w = 0b01#2 := by
  constructor
  · rintro ⟨b, h⟩
    rw [← encode_of_decode h, encode, opField_word]
  · exact fun h => ⟨_, decode_op_update h⟩

/-- The mask 0x3FF keeps the whole word. -/
theorem and_full_mask (w : CmdWord) : w &&& 0x3FF#10 = w := BitVec.and_allOnes

/-- The mask 0x300 keeps OP. -/
theorem and_op_mask (w : CmdWord) : w &&& 0x300#10 = word (opField w) 0x00#8 :=
  calc w &&& 0x300#10
    _ = word (opField w) (dataField w) &&& word 0b11#2 0x00#8 := by rw [word_fields]; rfl
    _ = word (opField w &&& 0b11#2) (dataField w &&& 0x00#8) := word_and_word _ _ _ _
    _ = word (opField w) 0x00#8 := by
      rw [show 0b11#2 = BitVec.allOnes 2 from rfl, BitVec.and_allOnes, BitVec.and_zero]

theorem and_op_mask_eq_iff (w : CmdWord) : w &&& 0x300#10 = 0x100#10 ↔ opField w = 0b01#2 := by
  rw [and_op_mask, show 0x100#10 = word 0b01#2 0x00#8 from rfl, eq_word_iff, opField_word, dataField_word]
  exact and_iff_left rfl

/-- No two rows select one word: INIT's and FINALIZE's rows select one word each, and UPDATE's row neither of these. -/
theorem opcodeTable_selects_le_one (w : CmdWord) : (opcodeTable.filter fun r => r.selects w).length ≤ 1 := by
  by_cases hi : w = 0x000#10
  · subst hi; decide
  · by_cases hf : w = 0x200#10
    · subst hf; decide
    · have hrows : (opcodeTable.filter fun r => r.selects w)
          = [opRow (.update 0x00#8)].filter fun r => r.selects w := by
        simp [opcodeTable, opRow, OpRow.selects, and_full_mask, hi, hf, List.filter_cons]
      rw [hrows]
      exact List.length_filter_le _ _

theorem isLegal_of_instr {w : CmdWord} {i : Instr} (h : decode w = .instr i) : isLegal w = true := by
  rw [isLegal, h]
  rfl

theorem isLegal_of_illegal {w : CmdWord} {why : IllegalWord} (h : decode w = .illegal why) : isLegal w = false := by
  rw [isLegal, h]
  rfl

theorem isLegal_iff (w : CmdWord) : isLegal w = true ↔ w = 0x000#10 ∨ opField w = 0b01#2 ∨ w = 0x200#10 := by
  obtain ⟨h, hd⟩ | ⟨h, hd⟩ | ⟨h, hd⟩ | ⟨hi, hu, hf, hd⟩ := decode_cases w
  · exact iff_of_true (isLegal_of_instr hd) (.inl h)
  · exact iff_of_true (isLegal_of_instr hd) (.inr (.inl h))
  · exact iff_of_true (isLegal_of_instr hd) (.inr (.inr h))
  · simp [isLegal_of_illegal hd, hi, hu, hf]

/-- The legal words are 0x000 and 0x100 to 0x200. -/
theorem isLegal_ofNat_iff {n : Nat} (h : n < 1024) :
    isLegal (BitVec.ofNat 10 n) = true ↔ n ∈ insert 0x000 (Finset.Ico 0x100 0x201) := by
  rw [isLegal_iff, eq_init_word_iff, eq_finalize_word_iff, opField_ofNat_eq_iff h, opField_ofNat_eq_iff h,
    opField_ofNat_eq_iff h, dataField_ofNat_eq_iff h, Finset.mem_insert, Finset.mem_Ico]
  simp only [BitVec.toNat_ofNat]
  omega

theorem count_isLegal : ((List.range 1024).filter fun n => isLegal (BitVec.ofNat 10 n)).length = 258 := by
  rw [length_filter_range (insert 0x000 (Finset.Ico 0x100 0x201)) ?_ fun k => isLegal_ofNat_iff,
    Finset.card_insert_of_notMem (by simp), Nat.card_Ico]
  intro k hk
  rw [Finset.mem_insert, Finset.mem_Ico] at hk
  omega

/-- Settles O2: the masks keep the whole word or OP, which is what the decoder looks at. -/
theorem opcodeMapSelectsCommands : Obligations.OpcodeMapSelectsCommands := by
  refine ⟨rfl, fun w => ?_, fun w => ?_, fun w => ?_, opcodeTable_selects_le_one, count_isLegal⟩
  · rw [and_full_mask]
    exact decode_eq_instr_iff w .init
  · rw [and_op_mask_eq_iff, decode_eq_update_iff]
  · rw [and_full_mask]
    exact decode_eq_instr_iff w .finalize

/-- Settles O4: each written-out word by its fields, through the encoder or the decoder's branch for its OP. -/
theorem writtenOutWordsDecode : Obligations.WrittenOutWordsDecode :=
  ⟨decode_encode .init, decode_encode (.update 0x31#8), decode_encode (.update 0x80#8), decode_encode .finalize,
    decode_op_init rfl, decode_op_finalize rfl, decode_op_unassigned rfl⟩

end Sys2Proof.Machine.Laws
end

section
/-! PROOFS. A command placed for the decoder (30_encoding.md R40, R47; log 2, log 11): it is read back, and the next
step executes it. -/

namespace Sys2Proof.Machine.Laws

/-- A command word's number gives the word back, in any instruction of at least 10 bits. -/
theorem tableWord?_toNat {nbits : Nat} (h : 10 ≤ nbits) (w : CmdWord) : tableWord? nbits w.toNat = some w := by
  have hw : w.toNat < 2 ^ nbits := w.isLt.trans_le (Nat.pow_le_pow_right (by decide) h)
  rw [tableWord?, Nat.mod_eq_of_lt hw, if_pos w.isLt, BitVec.ofNat_toNat, BitVec.setWidth_eq]

theorem decodeTableWord_encode (i : Instr) : decodeTableWord 16 (encode i).toNat = some i := by
  rw [decodeTableWord, tableWord?_toNat (by decide), Option.bind_some, decode_encode]
  rfl

theorem withFetchWord_toNat (s : State) (w : CmdWord) : s.withFetchWord 16 w.toNat = presentWord w s := by
  have hw : w.toNat < 2 ^ 16 := w.isLt.trans (by decide)
  rw [State.withFetchWord, Nat.mod_eq_of_lt hw, BitVec.ofNat_toNat, BitVec.setWidth_eq]

/-- The next step takes the presented word, on the state it was presented to. -/
theorem step_presentWord (w : CmdWord) (s : State) : step (presentWord w s) = acceptWord w s := by
  rw [step, fetchInput_cons _ _ _ (presentWord_inputs s w)]
  rfl

theorem acceptWord_encode (i : Instr) (s : State) : acceptWord (encode i) s = exec i s := by
  rw [acceptWord, decode_encode]

/-- Settles O34: the table word decodes back, and the next step accepts it. -/
theorem placedWordRunsNext : Obligations.PlacedWordRunsNext := by
  intro s i
  refine ⟨decodeTableWord_encode i, ?_⟩
  rw [withFetchWord_toNat, step_presentWord, acceptWord_encode]

end Sys2Proof.Machine.Laws
end

section
/-! PROOFS. The assembler (30_encoding.md R48, R49): the input of each core line, and the streams the
pseudo-instructions stand for. -/

namespace Sys2Proof.Machine.Laws

theorem assembleLine_of_wellFormed {l : AsmLine} (h : l.wellFormed = true) :
    assembleLine l = some (l.expand.filterMap AsmLine.input?) := if_pos h

theorem assembleLine_of_not_wellFormed {l : AsmLine} (h : l.wellFormed = false) : assembleLine l = none := by
  simp [assembleLine, h]

theorem isByteOperand_iff (n : Nat) : isByteOperand n = true ↔ n ≤ 255 := decide_eq_true_iff

/-- `UPD n` is the word 0x100 plus `n` (R48). -/
theorem assembleLine_upd {n : Nat} (h : n ≤ 255) :
    assembleLine (.upd n) = some [.cmd (0x100#10 + BitVec.ofNat 10 n)] := by
  have hword : encode (.update (BitVec.ofNat 8 n)) = 0x100#10 + BitVec.ofNat 10 n := by
    rw [encode_update, BitVec.setWidth_ofNat_of_le_of_lt (by decide) (by omega)]
  rw [← hword]
  exact assembleLine_of_wellFormed ((isByteOperand_iff n).mpr h)

theorem assembleLine_upd_of_gt {n : Nat} (h : 255 < n) : assembleLine (.upd n) = none :=
  assembleLine_of_not_wellFormed (decide_eq_false (Nat.not_le.mpr h))

theorem assembleLine_word {n : Nat} (h : n < 1024) : assembleLine (.word n) = some [.cmd (BitVec.ofNat 10 n)] :=
  assembleLine_of_wellFormed (l := .word n) (decide_eq_true h)

/-- Settles O58, line by line. -/
theorem assemblerLines : Obligations.AssemblerLines :=
  ⟨rfl, fun _ => assembleLine_upd, rfl, fun _ => assembleLine_word, rfl, fun _ => assembleLine_upd_of_gt⟩

/-! ### The pseudo-instructions (R49) -/

/-- A text stands for the bytes of its characters' codes. -/
theorem updsLines_eq (text : List Char) : updsLines text = updbLines (text.map Char.toNat) := by
  simp [updsLines, updbLines]

/-- The lines of a byte list are its updates (R70). -/
theorem filterMap_updbLines (bytes : List Nat) :
    (updbLines bytes).filterMap AsmLine.input? = updates (bytes.map (BitVec.ofNat 8)) := by
  induction bytes with
  | nil => rfl
  | cons b bytes ih => simpa [updbLines, AsmLine.input?] using ih

/-- Between INIT and FIN they are a checksum stream (R69). -/
theorem filterMap_checksumLines (bytes : List Nat) :
    (AsmLine.init :: (updbLines bytes ++ [.fin])).filterMap AsmLine.input?
      = checksumStream (bytes.map (BitVec.ofNat 8)) := by
  rw [checksumStream, ← filterMap_updbLines, List.filterMap_cons_some (f := AsmLine.input?) rfl,
    List.filterMap_append]
  rfl

theorem assembleLine_upds {text : List Char} (h : text.all isAsciiChar = true) :
    assembleLine (.upds text) = some (updates (text.map fun c => BitVec.ofNat 8 c.toNat)) := by
  rw [assembleLine_of_wellFormed (l := .upds text) h, AsmLine.expand, updsLines_eq, filterMap_updbLines, List.map_map]
  rfl

theorem assembleLine_crc {text : List Char} (h : text.all isAsciiChar = true) :
    assembleLine (.crc text) = some (checksumStream (text.map fun c => BitVec.ofNat 8 c.toNat)) := by
  rw [assembleLine_of_wellFormed (l := .crc text) h, AsmLine.expand, updsLines_eq, filterMap_checksumLines,
    List.map_map]
  rfl

/-- Every byte is an operand the assembler admits. -/
theorem all_isByteOperand (bytes : List Byte) : (bytes.map BitVec.toNat).all isByteOperand = true := by
  rw [List.all_map, List.all_eq_true]
  exact fun b _ => (isByteOperand_iff _).mpr (Nat.le_of_lt_succ b.isLt)

theorem map_ofNat_toNat (bytes : List Byte) : (bytes.map BitVec.toNat).map (BitVec.ofNat 8) = bytes := by
  rw [List.map_map]
  exact List.map_id'' (fun b => by rw [Function.comp, BitVec.ofNat_toNat, BitVec.setWidth_eq]) bytes

theorem assembleLine_updb (bytes : List Byte) :
    assembleLine (.updb (bytes.map BitVec.toNat)) = some (updates bytes) := by
  rw [assembleLine_of_wellFormed (l := .updb _) (all_isByteOperand bytes), AsmLine.expand, filterMap_updbLines,
    map_ofNat_toNat]

theorem assembleLine_crcb (bytes : List Byte) :
    assembleLine (.crcb (bytes.map BitVec.toNat)) = some (checksumStream bytes) := by
  rw [assembleLine_of_wellFormed (l := .crcb _) (all_isByteOperand bytes), AsmLine.expand, filterMap_checksumLines,
    map_ofNat_toNat]

/-- Settles O59, one lemma per pseudo-instruction; the empty operands are the empty text and the empty byte list. -/
theorem pseudoInstructionsExpand : Obligations.PseudoInstructionsExpand :=
  ⟨fun _ h => ⟨assembleLine_upds h, assembleLine_crc h⟩,
    fun bytes => ⟨assembleLine_updb bytes, assembleLine_crcb bytes⟩,
    assembleLine_upds rfl, assembleLine_updb [], assembleLine_crc rfl⟩

end Sys2Proof.Machine.Laws
end

section
/-! PROOFS. The INIT command (40_init.md R51 to R53): what it writes, and that nothing of the old ACC and PHASE is left. -/

namespace Sys2Proof.Machine.Laws

/-- Settles O7: no history changes Cfg, so both INITs write the value the block was built with. -/
theorem initValueIsConstant : Obligations.InitValueIsConstant := by
  intro s before before'
  have hacc (l : List Input) :
      (((runInputs s l).setAcc (runInputs s l).cfg.initValue).setPhase .accum).acc = s.cfg.initValue := by
    rw [setPhase_acc, setAcc_acc, runInputs_cfg]
  exact ⟨_, _, exec_init _, exec_init _, hacc before, (hacc before').trans (hacc before).symm⟩

/-- Settles O5: INIT has one equation for every state, of which the worked examples are the two reset states. -/
theorem initStartsChecksum : Obligations.InitStartsChecksum :=
  ⟨rfl, exec_init, fun s => ⟨faultOf_init s (decode_encode .init), rfl⟩, exec_init _, exec_init _⟩

/-- INIT overwrites the two registers of the checksum in progress, so it does not matter what they held (R52). -/
theorem after_init_overwrites (s : State) (a : Word16) (p : Phase) :
    after { s with acc := a, phase := p } (Input.ofInstr .init) = after s (Input.ofInstr .init) := by
  rw [after_init, after_init]
  rfl

/-- The second of two INITs finds ACC and PHASE as it would leave them (R52). -/
theorem after_init_after_init (s : State) :
    after (after s (Input.ofInstr .init)) (Input.ofInstr .init) = after s (Input.ofInstr .init) :=
  after_init_overwrites s s.cfg.initValue .accum

/-- Settles O6: a run is determined by the state after its first INIT. -/
theorem initRestartsInEveryPhase : Obligations.InitRestartsInEveryPhase := by
  refine ⟨fun s => ⟨_, exec_init s, rfl, rfl, rfl, rfl, rfl, rfl, rfl⟩, fun s a p l => ?_, fun s l => ?_⟩
  · rw [runInputs_cons, runInputs_cons, after_init_overwrites]
  · rw [runInputs_cons, runInputs_cons, runInputs_cons, after_init_after_init]

end Sys2Proof.Machine.Laws
end

section
/-! PROOFS. The UPDATE command and its datapath (41_update.md R54 to R61): the stages P1 to P3 and the bit-serial stages
compute one function, which is linear and loses nothing, because one single-bit stage is (R58). -/

namespace Sys2Proof.Machine.Laws

/-! ### One single-bit stage as wires (R57) -/

/-- The taps of POLY, x^0, x^5 and x^12 (R5). -/
theorem poly_getLsbD {k : Nat} (hk : k < 16) : poly.getLsbD k = decide (k = 0 ∨ k = 5 ∨ k = 12) := by
  revert k
  decide

/-- Bit `k` above 0 is the bit below, exclusive-ORed at a tap of POLY with the bit shifted out. -/
theorem bitStage_getLsbD {r : Word16} {k : Nat} (h1 : 1 ≤ k) (hk : k < 16) :
    (bitStage r).getLsbD k = Bool.xor (r.getLsbD (k - 1)) (r.getLsbD 15 && poly.getLsbD k) := by
  have hshift : (r <<< 1).getLsbD k = r.getLsbD (k - 1) := by
    rw [BitVec.getLsbD_shiftLeft, decide_eq_true hk, decide_eq_false (by omega)]
    rfl
  rw [bitStage]
  cases r.getLsbD 15
  · rw [if_neg Bool.false_ne_true, hshift, Bool.false_and, Bool.xor_false]
  · rw [if_pos rfl, BitVec.getLsbD_xor, hshift, Bool.true_and]

theorem bitStage_getLsbD_of_tap {r : Word16} {k : Nat} (hk : k = 5 ∨ k = 12) :
    (bitStage r).getLsbD k = Bool.xor (r.getLsbD (k - 1)) (r.getLsbD 15) := by
  rw [bitStage_getLsbD (by omega) (by omega), poly_getLsbD (by omega), decide_eq_true (.inr hk), Bool.and_true]

theorem bitStage_getLsbD_of_no_tap {r : Word16} {k : Nat} (h1 : 1 ≤ k) (h15 : k ≤ 15) (h5 : k ≠ 5)
    (h12 : k ≠ 12) : (bitStage r).getLsbD k = r.getLsbD (k - 1) := by
  rw [bitStage_getLsbD h1 (by omega), poly_getLsbD (by omega), decide_eq_false (by omega), Bool.and_false,
    Bool.xor_false]

/-- Settles O16: the wires by whether POLY has a tap at the bit, the rest by the definitions. -/
theorem bitStageWires : Obligations.BitStageWires :=
  ⟨fun _ _ => rfl, fun _ _ => ⟨rfl, rfl⟩, fun _ => rfl,
    fun r => ⟨bitStage_getLsbD_zero r, bitStage_getLsbD_of_tap (.inl rfl), bitStage_getLsbD_of_tap (.inr rfl),
      fun _ => bitStage_getLsbD_of_no_tap⟩,
    memRead_eq_reduceBits⟩

/-! ### The table form and the bit-serial form (R56, R58) -/

/-- Settles O15: the stages are the formula of R55 by definition, and its bytes are taken apart by `hi` and `lo`. -/
theorem pipelineStagesComputeReduce : Obligations.PipelineStagesComputeReduce :=
  fun a b => ⟨rfl, reduce_eq a b, rfl, fun _ => rfl, fun _ => rfl, rfl, (reduce_eq a b).symm,
    by rw [reduce_eq, hi_xor, hi_pair],
    by rw [reduce_eq, lo_xor, lo_pair, BitVec.zero_xor]⟩

/-- As long as only zeros are shifted out, `n` stages are a shift by `n`. -/
theorem bitStages_eq_shiftLeft {n : Nat} {r : Word16} (h : ∀ i, 16 ≤ i + n → r.getLsbD i = false) :
    bitStages n r = r <<< n := by
  induction n generalizing r with
  | zero => rw [bitStages, BitVec.shiftLeft_zero]
  | succ n ih =>
    have hstage : bitStage r = r <<< 1 := by rw [bitStage, h 15 (by omega), if_neg Bool.false_ne_true]
    have hclear : ∀ i, 16 ≤ i + n → (r <<< 1).getLsbD i = false := fun i hin => by
      rw [BitVec.getLsbD_shiftLeft]
      by_cases h0 : i = 0
      · simp [h0]
      · rw [h (i - 1) (by omega), Bool.and_false]
    rw [bitStages, hstage, ih hclear, ← BitVec.shiftLeft_add, Nat.add_comm]

/-- Eight stages move a low byte into the high byte: none of its bits reaches bit 15 before. -/
theorem bitStages_eight_lowByte (l : Byte) : bitStages 8 (pair 0x00#8 l) = pair l 0x00#8 := by
  rw [bitStages_eq_shiftLeft, shiftLeft_eight, lo_pair]
  intro i htop
  rw [getLsbD_pair, if_neg (by omega), BitVec.getLsbD_zero]

/-- The two forms agree (R58): by linearity the low byte of `a` only moves up, and the high byte with `b` is a table
entry. -/
theorem reduce_eq_reduceBits (a : Word16) (b : Byte) : reduce a b = reduceBits a b := by
  have hsplit : a ^^^ pair b 0x00#8 = pair 0x00#8 (lo a) ^^^ pair (hi a ^^^ b) 0x00#8 := word_ext (by simp) (by simp)
  calc reduce a b
    _ = pair (lo a) 0x00#8 ^^^ memRead (hi a ^^^ b) := reduce_eq a b
    _ = bitStages 8 (pair 0x00#8 (lo a)) ^^^ bitStages 8 (pair (hi a ^^^ b) 0x00#8) := by
      rw [bitStages_eight_lowByte]
      rfl
    _ = reduceBits a b := by rw [← bitStages_xor, ← hsplit, reduceBits]

/-- Settles O17, by `reduce_eq_reduceBits`. -/
theorem reduceEqualsBitSerial : Obligations.ReduceEqualsBitSerial := reduce_eq_reduceBits

/-! ### Linearity and injectivity (R61), from the bit-serial form -/

theorem reduce_xor (a a' : Word16) (b b' : Byte) : reduce (a ^^^ a') (b ^^^ b') = reduce a b ^^^ reduce a' b' := by
  have hsplit : a ^^^ a' ^^^ pair (b ^^^ b') 0x00#8 = (a ^^^ pair b 0x00#8) ^^^ (a' ^^^ pair b' 0x00#8) :=
    word_ext (by simp only [hi_xor, hi_pair]; ac_rfl) (by simp)
  simp only [reduce_eq_reduceBits, reduceBits]
  rw [hsplit, bitStages_xor]

theorem reduce_zero : reduce 0x0000#16 0x00#8 = 0x0000#16 := by decide

theorem reduce_injective_byte (a : Word16) : Function.Injective (reduce a) := by
  intro b b' h
  rw [reduce_eq_reduceBits, reduce_eq_reduceBits] at h
  have hpair : pair b 0x00#8 = pair b' 0x00#8 := (BitVec.xor_right_inj a).mp (bitStages_injective 8 h)
  simpa using congrArg hi hpair

theorem reduce_injective_acc (b : Byte) : Function.Injective fun a : Word16 => reduce a b := by
  intro a a' h
  simp only [reduce_eq_reduceBits] at h
  exact (BitVec.xor_left_inj (pair b 0x00#8)).mp (bitStages_injective 8 h)

/-- Settles O18: there are finitely many accumulators, so the injection is a bijection. -/
theorem reduceIsLinearAndBijective : Obligations.ReduceIsLinearAndBijective :=
  ⟨reduce_xor, reduce_zero, fun a _ _ h => reduce_injective_byte a h,
    fun b => Finite.injective_iff_bijective.mp (reduce_injective_acc b)⟩

/-! ### The command (R54) -/

/-- The fault action of a command out of sequence as one record (R86). -/
theorem takeFault_seqErr_eq (w : CmdWord) (s : State) :
    takeFault .seqErr w s = { s with
      errSeq := true
      fcause := if s.fcause = .noFault then .seqErr else s.fcause
      fcmd := if s.fcause = .noFault then w else s.fcmd } := by
  cases h : s.fcause <;> simp [takeFault, recordFirstFault, setErrFlag, h]

theorem exec_update_outOfSequence {s : State} (b : Byte) (h : s.phase ≠ .accum) :
    exec (.update b) s = .next { s with
      errSeq := true
      fcause := if s.fcause = .noFault then .seqErr else s.fcause
      fcmd := if s.fcause = .noFault then 0x100#10 + b.setWidth 10 else s.fcmd } := by
  rw [exec_outOfSequence (i := .update b) (by simp) h, takeFault_seqErr_eq, encode_update]

/-- The worked example of R54: the byte 0x31 from the default INIT_VALUE. -/
theorem reduce_worked_example : reduce 0xFFFF#16 0x31#8 = 0xC782#16 := by decide

/-- Settles O8: in sequence UPDATE is `reduce` on ACC, of which the worked example is one value; otherwise it takes the
fault action with its own word. -/
theorem updateFoldsByte : Obligations.UpdateFoldsByte := by
  refine ⟨encode_update, fun _ => exec_update_accum, fun _ => exec_update_outOfSequence,
    fun _ => tableReads_update_accum, by decide, reduce_zero, fun s hp ha => ?_⟩
  rw [exec_update_accum _ hp, ha, reduce_worked_example]
  rfl

end Sys2Proof.Machine.Laws
end

section
/-! PROOFS. The final transform `fin` (42_finalize.md R64): an exclusive OR followed by an optional exchange of the two
bytes, each of which undoes itself. -/

namespace Sys2Proof.Machine.Laws

/-- The byte swap only moves bits, so it distributes over the exclusive OR. -/
theorem bswap16_xor (a b : Word16) : bswap16 (a ^^^ b) = bswap16 a ^^^ bswap16 b := by
  rw [bswap16, lo_xor, hi_xor, pair_xor]
  rfl

theorem bswap16_eq_self {v : Word16} (h : hi v = lo v) : bswap16 v = v :=
  word_ext (by simp [bswap16, h]) (by simp [bswap16, h])

/-- The transform is the identity where nothing is inverted and nothing is swapped. -/
theorem fin_eq_self {c : Cfg} (a : Word16) (hx : c.xorOut = 0x0000#16) (hs : c.swapOut = false) : fin c a = a := by
  rw [fin_noSwap hs, hx, BitVec.xor_zero]

theorem fin_eq_not {c : Cfg} (a : Word16) (hx : c.xorOut = 0xFFFF#16) (hs : c.swapOut = false) :
    fin c a = ~~~a := by
  rw [fin_noSwap hs, hx]
  exact BitVec.xor_allOnes

/-- For an XOR_OUT whose two bytes agree, the order of the two operations makes no difference. -/
theorem fin_eq_bswap16_xor {c : Cfg} (a : Word16) (hx : hi c.xorOut = lo c.xorOut) (hs : c.swapOut = true) :
    fin c a = bswap16 a ^^^ c.xorOut := by
  rw [fin_swap hs, bswap16_xor, bswap16_eq_self hx]

theorem fin_eq_bswap16 {c : Cfg} (a : Word16) (hx : c.xorOut = 0x0000#16) (hs : c.swapOut = true) :
    fin c a = bswap16 a := by
  rw [fin_swap hs, hx, BitVec.xor_zero]

/-- `fin_inv` undoes the swap first and the exclusive OR second. -/
theorem finInv_fin (c : Cfg) (a : Word16) : finInv c (fin c a) = a := by
  cases hs : c.swapOut with
  | false => simp [finInv, fin_noSwap hs, hs]
  | true => simp [finInv, fin_swap hs, hs]

/-- With a left inverse on a finite type, the transform is a bijection. -/
theorem fin_bijective (c : Cfg) : Function.Bijective (fin c) :=
  Finite.injective_iff_bijective.mp (Function.LeftInverse.injective (finInv_fin c))

/-- Settles O20: the cases are the equations of `fin`, the bijection comes from `fin_inv`, and 0x00FF, whose bytes
differ, fixes the order. -/
theorem finTransform : Obligations.FinTransform := by
  refine ⟨fun c a hs => fin_noSwap hs a, fun c a hs => fin_swap hs a, fun _ => fin_eq_self, fun _ => fin_eq_not,
    fun _ => fin_eq_bswap16, fun c a hx hs => fin_eq_bswap16_xor a ?_ hs, fin_bijective, finInv_fin,
    fun _ _ => rfl, fun c hx hs => ?_⟩
  · obtain hx | hx := hx <;> rw [hx] <;> decide
  · rw [fin_swap hs, hx]
    decide

end Sys2Proof.Machine.Laws
end

section
/-! PROOFS. The FINALIZE command (42_finalize.md R63 to R67): what it delivers in sequence, what it and every other word
but INIT's leave alone out of sequence, and the checksum of the empty message. -/

namespace Sys2Proof.Machine.Laws

theorem exec_finalize_outOfSequence {s : State} (h : s.phase ≠ .accum) :
    exec .finalize s = .next { s with
      errSeq := true
      fcause := if s.fcause = .noFault then .seqErr else s.fcause
      fcmd := if s.fcause = .noFault then 0x200#10 else s.fcmd } := by
  rw [exec_outOfSequence (i := .finalize) (by simp) h, takeFault_seqErr_eq, encode]

/-- Settles O9: in sequence FINALIZE writes `fin` of ACC, which is ACC itself under the default profile; otherwise it
takes the fault action with its own word. -/
theorem finalizeDeliversResult : Obligations.FinalizeDeliversResult := by
  refine ⟨rfl, fun _ => exec_finalize_accum, fun _ => exec_finalize_outOfSequence, fun _ => rfl,
    fun s hc hp ha => ?_⟩
  have hfin : fin s.cfg s.acc = 0x29B1#16 := by rw [hc, ha, fin_eq_self _ rfl rfl]
  rw [exec_finalize_accum hp, hfin]
  rfl

/-- Settles O11: the fault action keeps the data registers, so in FINAL the invariant of the old state gives RESULT. -/
theorem finalizeOutOfSequenceKeepsResult : Obligations.FinalizeOutOfSequenceKeepsResult := by
  intro s hp
  have hout : s.phase ≠ .accum := by
    obtain hp | hp := hp <;> simp [hp]
  exact ⟨_, exec_finalize_outOfSequence hout, rfl, rfl, rfl, rfl, fun hf hinv => hinv hf⟩

/-! ### Only INIT leaves FINAL (R65) -/

/-- Outside ACCUM every word but INIT's faults (R83, R84). -/
theorem faultOf_ne_noFault {s : State} {w : CmdWord} (hp : s.phase ≠ .accum) (hw : w ≠ encode .init) :
    faultOf w s ≠ .noFault := by
  cases hd : decode w with
  | illegal why => simp [faultOf_illegal s hd]
  | instr i =>
    have hi : i ≠ .init := fun h => hw (by rw [← encode_of_decode hd, h])
    simp [faultOf_outOfSequence hd hi hp]

/-- Outside ACCUM a word other than INIT's changes the fault record at most. -/
theorem sameData_after_outOfSequence {s : State} {w : CmdWord} (hp : s.phase ≠ .accum) (hw : w ≠ encode .init) :
    SameData (after s (.cmd w)) s := by
  rw [after_of_fault (faultOf_ne_noFault hp hw)]
  constructor <;> simp

/-- A run of such words never gets into ACCUM, so none of them has an effect on the data. -/
theorem sameData_runInputs_outOfSequence {s : State} {l : List Input} (hp : s.phase ≠ .accum)
    (hl : ∀ inp ∈ l, ∃ w, inp = .cmd w ∧ w ≠ encode .init) : SameData (runInputs s l) s := by
  induction l generalizing s with
  | nil => exact ⟨rfl, rfl, rfl, rfl⟩
  | cons inp l ih =>
    obtain ⟨⟨w, rfl, hw⟩, hrest⟩ := List.forall_mem_cons.mp hl
    obtain ⟨hcfg, hacc, hphase, hresult⟩ := sameData_after_outOfSequence hp hw
    obtain ⟨hcfg', hacc', hphase', hresult'⟩ := ih (hphase ▸ hp) hrest
    exact ⟨hcfg'.trans hcfg, hacc'.trans hacc, hphase'.trans hphase, hresult'.trans hresult⟩

/-- Settles O10: FINALIZE keeps ACC by its frame, and in FINAL every word but INIT's is out of sequence or illegal. -/
theorem finalStateHoldsUntilInit : Obligations.FinalStateHoldsUntilInit := by
  refine ⟨fun s t he => ?_, fun s t hp he => ?_, fun s l hp hl => ?_⟩
  · obtain ⟨-, -, -, -, -, hacc, -⟩ := commandFrames .finalize s t he
    exact hacc rfl
  · rw [exec_finalize_accum hp] at he
    cases he
    exact ⟨rfl, rfl⟩
  · have hout : s.phase ≠ .accum := by simp [hp]
    obtain ⟨-, hacc, hphase, hresult⟩ := sameData_runInputs_outOfSequence hout hl
    exact ⟨hacc, hresult, hphase.trans hp⟩

/-! ### The empty message (R67, R72) -/

theorem crc_nil (c : Cfg) : crc c [] = fin c c.initValue := rfl

/-- Settles O43: INIT directly followed by FIN is the checksum stream of the empty message; the values of R67 are the
identity and the bit inversion of INIT_VALUE. -/
theorem emptyMessageChecksum : Obligations.EmptyMessageChecksum := by
  refine ⟨crc_nil, fun s => ?_, fin_eq_self _ rfl rfl, fin_eq_self _ rfl rfl, fun c hi hx hs => ?_,
    fun c hi hx hs => ?_⟩
  · change (runInputs s (checksumStream [])).result = fin s.cfg s.cfg.initValue
    rw [runInputs_checksumStream, setPhase_result, setResult_result, crc_nil]
  · rw [crc_nil, hi, fin_eq_not _ hx hs]
    decide
  · rw [crc_nil, hi, fin_eq_not _ hx hs]
    decide

end Sys2Proof.Machine.Laws
end

section
/-! PROOFS. The step function and the runs of 43_streams_and_laws.md R68: what each kind of input does, and that the
machine's own steps, one per presented input, perform the run. -/

namespace Sys2Proof.Machine.Laws

/-! ### One step of the machine -/

/-- A step on a presented word is the acceptance of that word. -/
theorem step_cons_cmd {s : State} {w : CmdWord} {rest : List Input} (h : s.inputs = .cmd w :: rest) :
    step s = acceptWord w (s.setInputs rest) :=
  (step_cons h).trans (acceptInput_eq_after _ _).symm

theorem acceptWord_of_instr {w : CmdWord} {i : Instr} (s : State) (hd : decode w = .instr i) :
    acceptWord w s = exec i s := by rw [acceptWord, hd]

theorem acceptWord_of_illegal {w : CmdWord} {why : IllegalWord} (s : State) (hd : decode w = .illegal why) :
    acceptWord w s = .next (takeFault .illegalCmd w s) := by rw [acceptWord, hd]

/-- Settles O33: a step is idle or accepts the next input, and a word is accepted by what it decodes to. -/
theorem stepRunsNextInput : Obligations.StepRunsNextInput :=
  ⟨fun _ _ _ _ hin hd => (step_cons_cmd hin).trans (acceptWord_of_instr _ hd),
    fun _ _ _ _ hin hd => (step_cons_cmd hin).trans (acceptWord_of_illegal _ hd),
    fun _ _ hin => step_cons hin,
    fun _ => step_nil⟩

/-- Settles O36: an idle step keeps the state, and an input writes neither Cfg nor the remaining inputs. -/
theorem everyStepAnswersNext : Obligations.EveryStepAnswersNext := by
  intro s
  cases hin : s.inputs with
  | nil => exact ⟨s, step_nil hin, rfl, hin⟩
  | cons inp rest => exact ⟨_, step_cons hin, after_cfg _ _, after_inputs _ _⟩

/-! ### The cells of the transition table (R77) -/

/-- A legal word other than INIT's, out of sequence, takes SEQ_ERR with that word (R83). -/
theorem after_outOfSequence {s : State} {w : CmdWord} {i : Instr} (hd : decode w = .instr i) (hi : i ≠ .init)
    (hp : s.phase ≠ .accum) : after s (.cmd w) = takeFault .seqErr w s := by
  rw [after_legal hd (exec_outOfSequence hi hp), encode_of_decode hd]

/-- A word that takes a fault leaves PHASE (R87). -/
theorem after_eq_takeFault_and_phase {s : State} {inp : Input} {cause : FaultCause} {w : CmdWord} {p : Phase}
    (h : after s inp = takeFault cause w s) (hp : s.phase = p) :
    after s inp = takeFault cause w s ∧ (after s inp).phase = p :=
  ⟨h, by rw [h, takeFault_phase, hp]⟩

/-- UPDATE by the phase check (R83). -/
theorem after_of_decode_update {w : CmdWord} {b : Byte} (s : State) (hd : decode w = .instr (.update b)) :
    after s (.cmd w) = if s.phase = .accum then s.setAcc (reduce s.acc b) else takeFault .seqErr w s := by
  split
  case isTrue hp => exact after_legal hd (exec_update_accum b hp)
  case isFalse hp => exact after_outOfSequence hd (by simp) hp

/-- FINALIZE by the phase check (R83). -/
theorem after_of_decode_finalize {w : CmdWord} (s : State) (hd : decode w = .instr .finalize) :
    after s (.cmd w) =
      if s.phase = .accum then (s.setResult (fin s.cfg s.acc)).setPhase .final else takeFault .seqErr w s := by
  split
  case isTrue hp => exact after_legal hd (exec_finalize_accum hp)
  case isFalse hp => exact after_outOfSequence hd (by simp) hp

/-- UPDATE outside ACCUM takes SEQ_ERR and stays in its phase. -/
theorem after_update_outOfSequence {s : State} {p : Phase} (b : Byte) (hs : s.phase = p) (hp : p ≠ .accum) :
    after s (.cmd (encode (.update b))) = takeFault .seqErr (encode (.update b)) s
      ∧ (after s (.cmd (encode (.update b)))).phase = p :=
  after_eq_takeFault_and_phase (after_outOfSequence (decode_encode _) (by simp) (hs ▸ hp)) hs

/-- FINALIZE outside ACCUM takes SEQ_ERR and stays in its phase. -/
theorem after_finalize_outOfSequence {s : State} {p : Phase} (hs : s.phase = p) (hp : p ≠ .accum) :
    after s (.cmd 0x200#10) = takeFault .seqErr 0x200#10 s ∧ (after s (.cmd 0x200#10)).phase = p :=
  after_eq_takeFault_and_phase (after_outOfSequence (decode_encode .finalize) (by simp) (hs ▸ hp)) hs

/-- Settles O37, cell by cell: the row Reset, the row INIT, the cells of UPDATE and of FINALIZE, the illegal words, and
the frame of the fault action. -/
theorem phaseTransitionTable : Obligations.PhaseTransitionTable :=
  ⟨after_reset, after_init,
    fun _ b hp => after_update_outOfSequence b hp (by simp),
    fun _ b hp => after_update b hp,
    fun _ b hp => after_update_outOfSequence b hp (by simp),
    fun _ hp => after_finalize_outOfSequence hp (by simp),
    fun _ hp => after_finalize hp,
    fun _ hp => after_finalize_outOfSequence hp (by simp),
    fun _ _ _ hd => after_eq_takeFault_and_phase (after_illegal hd) rfl,
    fun s cause w => ⟨takeFault_phase s cause w, takeFault_acc s cause w, takeFault_result s cause w⟩⟩

/-! ### The machine performs the run (R68) -/

/-- One machine step per presented input ends in the run over these inputs, because no input reads or writes the ones
still to come. -/
theorem core_run_eq_runInputs {s : State} {l : List Input} (h : s.inputs = l) :
    core.run l.length s = .next (runInputs (s.setInputs []) l) := by
  induction l generalizing s with
  | nil =>
    have hs : s.setInputs [] = s := h ▸ setInputs_self s
    rw [hs, runInputs_nil, List.length_nil]
    rfl
  | cons inp rest ih =>
    have hstep : core.run (rest.length + 1) s = core.run rest.length (after (s.setInputs rest) inp) :=
      run_succ core _ _ _ (step_cons h)
    rw [List.length_cons, hstep, ih (after_inputs _ _), ← after_setInputs, setInputs_setInputs, runInputs_cons]

/-- Settles O35: the arms of the step function, its run as a left fold, and the machine's steps as that run. -/
theorem stepRefinesCommandLevel : Obligations.StepRefinesCommandLevel :=
  ⟨after_reset, fun _ _ _ => after_illegal, fun s _ hd => after_legal hd (exec_init s),
    fun s _ _ => after_of_decode_update s, fun s _ => after_of_decode_finalize s,
    runInputs_nil, runInputs_cons, fun _ => core_run_eq_runInputs rfl⟩

end Sys2Proof.Machine.Laws
end

section
/-! PROOFS. The checksum as a function (43_streams_and_laws.md R69, R73, R74) and the readout of TABLE through the
command port (R80), from what a stream does to the registers. -/

namespace Sys2Proof.Machine.Laws

/-- Settles O41: the first two clauses are the definitions of R69, the third is `runInputs_checksumStream`. -/
theorem checksumStreamComputesCrc : Obligations.ChecksumStreamComputesCrc :=
  fun s m => ⟨rfl, rfl, runInputs_checksumStream s m⟩

/-- Settles O44, by evaluating the two checksums. -/
theorem conformanceVectors : Obligations.ConformanceVectors := by
  constructor <;> decide

/-! ### The parameters of the variant (R74) -/

theorem accOf_congr {c c' : Cfg} (hi : c.initValue = c'.initValue) (m : List Byte) : accOf c m = accOf c' m := by
  rw [accOf, accOf, hi]

theorem fin_congr {c c' : Cfg} (hx : c.xorOut = c'.xorOut) (hs : c.swapOut = c'.swapOut) (a : Word16) :
    fin c a = fin c' a := by
  rw [fin, fin, hx, hs]

theorem crc_congr {c c' : Cfg} (hi : c.initValue = c'.initValue) (hx : c.xorOut = c'.xorOut)
    (hs : c.swapOut = c'.swapOut) (m : List Byte) : crc c m = crc c' m := by
  rw [crc, crc, accOf_congr hi, fin_congr hx hs]

theorem runInputs_checksumStream_acc (s : State) (m : List Byte) :
    (runInputs s (checksumStream m)).acc = accOf s.cfg m := by simp [runInputs_checksumStream]

theorem runInputs_checksumStream_result (s : State) (m : List Byte) :
    (runInputs s (checksumStream m)).result = crc s.cfg m := by simp [runInputs_checksumStream]

/-- Settles O45: a stream leaves the two functions of Cfg and message, which read the variant's parameters only. -/
theorem resultDependsOnMessageAndVariantOnly : Obligations.ResultDependsOnMessageAndVariantOnly := by
  intro s s' m hi hx hs
  refine ⟨?_, ?_, runInputs_checksumStream_result s m⟩
  · rw [runInputs_checksumStream_result, runInputs_checksumStream_result, crc_congr hi hx hs]
  · rw [runInputs_checksumStream_acc, runInputs_checksumStream_acc, accOf_congr hi]

/-! ### Reading TABLE out (R80) -/

/-- The byte `i ^ hi(a)` makes UPDATE read entry `i` (R62). -/
theorem reduce_xor_hi (a : Word16) (i : Byte) : reduce a (i ^^^ hi a) = pair (lo a) 0x00#8 ^^^ memRead i := by
  rw [reduce_eq, BitVec.xor_comm i, ← BitVec.xor_assoc, BitVec.xor_self, BitVec.zero_xor]

theorem runInputs_init_update_acc (s : State) (b : Byte) :
    (runInputs s [Input.ofInstr .init, Input.ofInstr (.update b)]).acc = reduce s.cfg.initValue b := by
  change (runInputs s (Input.ofInstr .init :: updates [b])).acc = _
  rw [runInputs_init_updates]
  rfl

/-- Settles O48: the general form by `reduce_xor_hi`, of which the two special cases are the bytes of INIT_VALUE. -/
theorem tableReadoutThroughPort : Obligations.TableReadoutThroughPort := by
  simp only [Obligations.TableReadoutThroughPort, runInputs_init_update_acc]
  refine ⟨fun s i => reduce_xor_hi _ i, fun s i h => ?_, fun s i h => ?_⟩
  · have hzero := reduce_xor_hi 0x0000#16 i
    rwa [show hi 0x0000#16 = 0x00#8 by decide, show pair (lo 0x0000#16) 0x00#8 = 0x0000#16 by decide,
      BitVec.xor_zero, BitVec.zero_xor, ← h] at hzero
  · rw [h]
    exact reduce_xor_hi 0xFFFF#16 i

end Sys2Proof.Machine.Laws
end

section
/-! PROOFS. The sensitivity of the checksum (43_streams_and_laws.md R75) and its residue (R79): a fold of `reduce` loses
nothing of the accumulator, and a word fed its own two bytes becomes zero. -/

namespace Sys2Proof.Machine.Laws

/-- No suffix brings two different accumulators together. -/
theorem foldl_reduce_injective (q : List Byte) : Function.Injective fun a : Word16 => q.foldl reduce a := by
  induction q with
  | nil => exact fun _ _ h => h
  | cons b q ih => exact ih.comp (reduce_injective_acc b)

theorem crc_injective_byte (c : Cfg) (p q : List Byte) : Function.Injective fun b => crc c (p ++ b :: q) := by
  intro b b' h
  have hacc : accOf c (p ++ b :: q) = accOf c (p ++ b' :: q) := (fin_bijective c).injective h
  simp only [accOf, List.foldl_append, List.foldl_cons] at hacc
  exact reduce_injective_byte _ (foldl_reduce_injective q hacc)

/-- Settles O46, by `crc_injective_byte`. -/
theorem singleByteChangeChangesChecksum : Obligations.SingleByteChangeChangesChecksum :=
  fun c p q _ _ hne => (crc_injective_byte c p q).ne hne

theorem length_eq_of_differInOneByte {m m' : List Byte} (h : differInOneByte m m' = true) :
    m.length = m'.length := by
  obtain ⟨p, b, b', q, -, rfl, rfl⟩ := (differInOneByte_iff m m').mp h
  simp

theorem crc_ne_of_differInOneByte (c : Cfg) {m m' : List Byte} (h : differInOneByte m m' = true) :
    crc c m ≠ crc c m' := by
  obtain ⟨p, b, b', q, hne, rfl, rfl⟩ := (differInOneByte_iff m m').mp h
  exact (crc_injective_byte c p q).ne hne

/-! ### The residue (R79) -/

/-- An accumulator fed its own high byte reads the zero entry, so only its low byte is left. -/
theorem reduce_hi_self (a : Word16) : reduce a (hi a) = pair (lo a) 0x00#8 := by
  rw [reduce_eq, BitVec.xor_self, memRead_zero, BitVec.xor_zero]

theorem reduce_hi_lo_self (a : Word16) : reduce (reduce a (hi a)) (lo a) = 0x0000#16 := by
  have hlow := reduce_hi_self (pair (lo a) 0x00#8)
  rw [hi_pair, lo_pair] at hlow
  rw [reduce_hi_self, hlow]
  decide

theorem accOf_append_bytes_of_accOf (c : Cfg) (m : List Byte) :
    accOf c (m ++ [hi (accOf c m), lo (accOf c m)]) = 0x0000#16 := by
  rw [accOf, List.foldl_append]
  exact reduce_hi_lo_self (accOf c m)

/-- Settles O47: without inversion and swap the checksum is the accumulator itself. -/
theorem residueIsZero : Obligations.ResidueIsZero := by
  intro c m hx hs
  rw [crc, fin_eq_self _ hx hs]
  exact accOf_append_bytes_of_accOf c m

/-! ### What the rule concedes: collisions -/

/-- Two messages of different length: 0xFF, 0xFF are the bytes of INIT_VALUE and bring ACC to zero, where a zero byte
leaves it. -/
theorem crc_collision_of_lengths : crc Cfg.ccittFalse [0xFF#8, 0xFF#8] = crc Cfg.ccittFalse [0xFF#8, 0xFF#8, 0x00#8] := by
  have hzero : accOf Cfg.ccittFalse [0xFF#8, 0xFF#8] = 0x0000#16 := reduce_hi_lo_self 0xFFFF#16
  have hstay : accOf Cfg.ccittFalse [0xFF#8, 0xFF#8, 0x00#8] = 0x0000#16 := by
    change reduce (accOf Cfg.ccittFalse [0xFF#8, 0xFF#8]) 0x00#8 = _
    rw [hzero, reduce_zero]
  rw [crc, crc, hzero, hstay]

/-- Settles O60: the law in the model's own premise, on the machine by `runInputs_checksumStream`; the collisions are
the one of V11 and `crc_collision_of_lengths`. -/
theorem oneByteChangeShowsInResult : Obligations.OneByteChangeShowsInResult := by
  refine ⟨fun c m m' h => ⟨length_eq_of_differInOneByte h, crc_ne_of_differInOneByte c h⟩, fun s s' m m' hc h => ?_,
    ⟨[0x00#8, 0x10#8, 0x21#8], [0x01#8, 0x00#8, 0x00#8], rfl, by decide, by decide, by decide⟩,
    ⟨_, _, by decide, crc_collision_of_lengths⟩⟩
  rw [runInputs_checksumStream_result, runInputs_checksumStream_result, ← hc]
  exact crc_ne_of_differInOneByte s.cfg h

end Sys2Proof.Machine.Laws
end

section
/-! PROOFS. The port level performs the command-level run over the accepted inputs (70_reset_and_hazards.md R105), edge by
edge; an idle edge is no input (R94). -/

namespace Sys2Proof.Machine.Laws

/-- One edge settles to the run over its own input: Reset, the accepted word, or nothing. -/
theorem edge_settled (p : PortState) (pins : Pins) :
    (p.edge pins).settled = runInputs p.settled (p.inputOf pins) := by
  obtain ⟨hr, he⟩ | ⟨f, hr, hf, he⟩ | ⟨hr, hf, hv, he⟩ | ⟨hr, hf, hv, he⟩ := edge_cases p pins <;> rw [he]
  · cases hf : p.inFlight <;> simp [PortState.inputOf, PortState.applyReset, PortState.settled, applyReset, hr, hf]
  · simp [advance_settled p f hf, PortState.inputOf, PortState.accepted, PortState.cmdReady, hr, hf]
  · simp [launch_settled p _ hf, PortState.inputOf, PortState.accepted, PortState.cmdReady, hr, hf, hv]
  · simp [PortState.inputOf, PortState.accepted, hr, hv]

theorem run_settled (p : PortState) (l : List Pins) :
    (p.run l).settled = runInputs p.settled (p.acceptedInputs l) := by
  induction l generalizing p with
  | nil => rfl
  | cons pins l ih => rw [port_run_cons, ih, edge_settled, PortState.acceptedInputs, runInputs_append]

/-! ### Idle edges -/

/-- An edge that offers no command and no Reset is no input, in flight or not. -/
theorem inputOf_idle (p : PortState) {pins : Pins} (h : pins.rst = false ∧ pins.cmdValid = false) :
    p.inputOf pins = [] := by
  obtain ⟨hr, hv⟩ := h
  simp [PortState.inputOf, PortState.accepted, hr, hv]

section Idle

variable {idles : List Pins} (hidle : ∀ pins ∈ idles, pins.rst = false ∧ pins.cmdValid = false)
include hidle

theorem acceptedInputs_idle (p : PortState) : p.acceptedInputs idles = [] := by
  induction idles generalizing p with
  | nil => rfl
  | cons pins idles ih =>
    obtain ⟨hpins, hrest⟩ := List.forall_mem_cons.mp hidle
    rw [PortState.acceptedInputs, inputOf_idle p hpins, ih hrest, List.append_nil]

theorem run_idle_settled (p : PortState) : (p.run idles).settled = p.settled := by
  rw [run_settled, acceptedInputs_idle hidle, runInputs_nil]

/-- With nothing in flight idle edges change nothing at all (R94). -/
theorem run_idle {p : PortState} (hf : p.inFlight = none) : p.run idles = p := by
  induction idles with
  | nil => rfl
  | cons pins idles ih =>
    obtain ⟨⟨hr, hv⟩, hrest⟩ := List.forall_mem_cons.mp hidle
    rw [port_run_cons, edge_idle p pins hr hv hf, ih hrest]

/-- Idle edges where nothing is in flight can be left out of a pin list. -/
theorem run_drop_idle {p : PortState} {before : List Pins} (hf : (p.run before).inFlight = none)
    (later : List Pins) : p.run (before ++ idles ++ later) = p.run (before ++ later) := by
  rw [port_run_append, port_run_append, run_idle hidle hf, ← port_run_append]

theorem acceptedInputs_drop_idle {p : PortState} {before : List Pins} (hf : (p.run before).inFlight = none)
    (later : List Pins) : p.acceptedInputs (before ++ idles ++ later) = p.acceptedInputs (before ++ later) := by
  rw [acceptedInputs_append, acceptedInputs_append, port_run_append, run_idle hidle hf, acceptedInputs_idle hidle,
    List.append_nil, ← acceptedInputs_append]

end Idle

end Sys2Proof.Machine.Laws
end

section
/-! PROOFS. Splitting a message into `update` calls (43_streams_and_laws.md R70, R71): UPDATEs of the parts are the
UPDATEs of the whole, and what does change the result, an INIT or a FIN between them. -/

namespace Sys2Proof.Machine.Laws

/-- The UPDATEs of the chunks, one after another, are those of the joined bytes (R70). -/
theorem flatMap_updates (chunks : List (List Byte)) : chunks.flatMap updates = updates chunks.flatten :=
  List.map_flatten.symm

theorem runInputs_chunks (s : State) (chunks : List (List Byte)) :
    runInputs s (Input.ofInstr .init :: (chunks.flatMap updates ++ [Input.ofInstr .finalize])) =
      ((s.setAcc (accOf s.cfg chunks.flatten)).setResult (crc s.cfg chunks.flatten)).setPhase .final := by
  rw [flatMap_updates]
  exact runInputs_checksumStream s chunks.flatten

/-- A second INIT makes the run what it would have been without the first checksum. -/
theorem runInputs_restart (s : State) (a b : List Byte) :
    runInputs s (Input.ofInstr .init :: (updates a ++ checksumStream b)) = runInputs s (checksumStream b) := by
  rw [← List.cons_append, runInputs_append, runInputs_init_updates, runInputs_checksumStream,
    runInputs_checksumStream]
  rfl

/-! ### UPDATEs after FIN -/

/-- UPDATEs outside ACCUM change the fault record at most. -/
theorem sameData_updates_outOfSequence {s : State} (hp : s.phase ≠ .accum) (m : List Byte) :
    SameData (runInputs s (updates m)) s := by
  refine sameData_runInputs_outOfSequence hp fun inp hin => ?_
  obtain ⟨b, -, rfl⟩ := List.mem_map.mp hin
  exact ⟨_, rfl, fun hw => by simpa using congrArg decode hw⟩

/-- UPDATEs outside ACCUM set ERR_SEQ, if there is any. -/
theorem errSeq_updates_outOfSequence {s : State} (hp : s.phase ≠ .accum) (m : List Byte) :
    (runInputs s (updates m)).errSeq = (s.errSeq || !m.isEmpty) := by
  induction m generalizing s with
  | nil => simp
  | cons b m ih =>
    obtain ⟨hfault, hphase⟩ := after_update_outOfSequence b rfl hp
    rw [updates_cons, runInputs_cons, Input.ofInstr, ih (hphase ▸ hp), hfault]
    simp

/-- Settles O42: the chunks and the bursts are updates of the joined bytes, idle edges are no inputs, and after FIN the
block is out of sequence. -/
theorem splittingMessagesChangesNothing : Obligations.SplittingMessagesChangesNothing := by
  refine ⟨runInputs_chunks, fun s a b hp => ⟨runInputs_updates s _ hp, ?_, List.foldl_append⟩,
    fun p idles hidle => ⟨run_idle_settled hidle p, acceptedInputs_idle hidle p⟩,
    fun p before idles later _ hacc => ?_,
    fun p before idles later hidle hf => ⟨run_drop_idle hidle hf later, acceptedInputs_drop_idle hidle hf later⟩,
    runInputs_restart, fun s a b => ?_⟩
  · rw [← updates_append, runInputs_updates s _ hp, List.foldl_append]
    rfl
  · rw [run_settled, run_settled, hacc]
  · have hout : (runInputs s (checksumStream a)).phase ≠ .accum := by simp [runInputs_checksumStream]
    obtain ⟨-, hacc, -, hresult⟩ := sameData_updates_outOfSequence hout b
    rw [runInputs_append]
    refine ⟨hacc.trans (runInputs_checksumStream_acc s a), hresult.trans (runInputs_checksumStream_result s a),
      fun hb => ?_⟩
    rw [errSeq_updates_outOfSequence hout]
    simp [hb]

end Sys2Proof.Machine.Laws
end

section
/-! PROOFS. Which words fault, for which cause, and what the fault action does and leaves (60_exceptions.md R83 to R89;
70_reset_and_hazards.md R100). -/

namespace Sys2Proof.Machine.Laws

/-! ### The fault action (R86, R89) -/

/-- Settles O22, by the equation of the fault action for each cause. -/
theorem faultActionRecordsFirstFault : Obligations.FaultActionRecordsFirstFault :=
  fun s w => ⟨takeFault_seqErr_eq w s, takeFault_illegalCmd_eq w s⟩

theorem takeFault_seqErr_of_recorded {s : State} (w : CmdWord) (h : s.fcause ≠ .noFault) :
    takeFault .seqErr w s = { s with errSeq := true } := by
  rw [takeFault_seqErr_eq, if_neg h, if_neg h]

theorem takeFault_illegalCmd_of_recorded {s : State} (w : CmdWord) (h : s.fcause ≠ .noFault) :
    takeFault .illegalCmd w s = { s with errIll := true } := by
  rw [takeFault_illegalCmd_eq, if_neg h, if_neg h]

/-- Settles O25: with a fault recorded the equations of the fault action lose their record; in the example FIN is out
of sequence after reset and makes the record, and the illegal word then finds it made. -/
theorem repeatedFaultKeepsFirstRecord : Obligations.RepeatedFaultKeepsFirstRecord := by
  refine ⟨fun s w h => ⟨takeFault_seqErr_of_recorded w h, takeFault_illegalCmd_of_recorded w h⟩, ?_⟩
  have hfin : after State.reset (.cmd 0x200#10) = takeFault .seqErr 0x200#10 State.reset :=
    after_outOfSequence (decode_encode .finalize) (by decide) (by decide)
  rw [runInputs_cons, runInputs_cons, runInputs_nil, hfin, after_illegal (decode_op_unassigned rfl),
    takeFault_illegalCmd_of_recorded _ (by decide), takeFault_seqErr_eq]
  rfl

/-! ### Which words fault (R83, R84) -/

/-- The phase check by itself: a legal word faults exactly if it is not INIT's and PHASE is not ACCUM. -/
theorem faultOf_of_instr {w : CmdWord} {i : Instr} (s : State) (hd : decode w = .instr i) :
    faultOf w s = if i = .init ∨ s.phase = .accum then .noFault else .seqErr := by
  split
  case isTrue h =>
    obtain rfl | hp := h
    · exact faultOf_init s hd
    · exact faultOf_inSequence hd hp
  case isFalse h =>
    obtain ⟨hi, hp⟩ := not_or.mp h
    exact faultOf_outOfSequence hd hi hp

theorem faultOf_ne_illegalCmd {w : CmdWord} {i : Instr} (s : State) (hd : decode w = .instr i) :
    faultOf w s ≠ .illegalCmd := by
  rw [faultOf_of_instr s hd]
  split <;> simp

theorem faultOf_eq_illegalCmd_iff (w : CmdWord) (s : State) :
    faultOf w s = .illegalCmd ↔ ∃ why, decode w = .illegal why := by
  cases hd : decode w with
  | illegal why => simp [faultOf_illegal s hd]
  | instr i => simp [faultOf_ne_illegalCmd s hd]

theorem faultOf_eq_seqErr_iff (w : CmdWord) (s : State) :
    faultOf w s = .seqErr ↔
      ((∃ b, decode w = .instr (.update b)) ∨ decode w = .instr .finalize) ∧ (s.phase = .uninit ∨ s.phase = .final) := by
  have hphase : s.phase = .uninit ∨ s.phase = .final ↔ s.phase ≠ .accum := by cases s.phase <;> simp
  rw [hphase]
  cases hd : decode w with
  | illegal why => simp [faultOf_illegal s hd]
  | instr i => cases i <;> simp [faultOf_of_instr s hd]

theorem acceptWord_eq_after (w : CmdWord) (s : State) : acceptWord w s = .next (after s (.cmd w)) :=
  acceptInput_eq_after (.cmd w) s

/-- A word that does not fault is a command, executed with the record left as it was. -/
theorem exec_of_noFault {w : CmdWord} {s : State} (h : faultOf w s = .noFault) :
    ∃ i t, decode w = .instr i ∧ exec i s = .next t ∧ sameFaultRecord s t := by
  cases hd : decode w with
  | illegal why => simp [faultOf_illegal s hd] at h
  | instr i =>
    have hexec : exec i s = .next (after s (.cmd w)) := by rw [← acceptWord_of_instr s hd, acceptWord_eq_after]
    exact ⟨i, _, rfl, hexec, sameFaultRecord_after_of_noFault h⟩

/-- Settles O21, one lemma per cause; that a faulting word takes the fault action is `after_of_fault`. -/
theorem whichWordsFault : Obligations.WhichWordsFault := by
  refine fun w s => ⟨faultOf_eq_illegalCmd_iff w s, faultOf_eq_seqErr_iff w s, exec_of_noFault, ?_⟩
  rintro _ rfl hne
  rw [acceptWord_eq_after, after_of_fault hne]

/-! ### A faulting word is dropped (R87) -/

theorem sameData_after_of_fault {s : State} {w : CmdWord} (h : faultOf w s ≠ .noFault) :
    SameData (after s (.cmd w)) s := by
  rw [after_of_fault h]
  constructor <;> simp

/-- Settles O23: the fault action leaves the data, and no later input reads the fault record. -/
theorem faultingCommandIsDropped : Obligations.FaultingCommandIsDropped := by
  refine fun s w h => ⟨after_of_fault h, fun l => ?_⟩
  obtain ⟨-, hacc, hphase, hresult⟩ := sameData_runInputs (sameData_after_of_fault h) l
  exact ⟨hacc, hphase, hresult⟩

/-! ### Priorities (R85, R100) -/

theorem edge_of_rst (p : PortState) {pins : Pins} (hr : pins.rst = true) : p.edge pins = p.applyReset := if_pos hr

theorem cmdReady_rst (p : PortState) : p.cmdReady true = false := rfl

theorem accepted_of_rst (p : PortState) {pins : Pins} (hr : pins.rst = true) : p.accepted pins = none := by
  rw [PortState.accepted, hr, cmdReady_rst, Bool.and_false, if_neg Bool.false_ne_true]

/-- Settles O24: a word's own cause decides which flag it sets, and a legal word's is never ILLEGAL_CMD; at an edge with
`rst_i` = 1 the block is not ready. -/
theorem priorityOfDecodeCheckAndReset : Obligations.PriorityOfDecodeCheckAndReset := by
  refine ⟨fun s w why hd => ?_, fun s w i hd => ?_, fun p pins hr => ⟨?_, accepted_of_rst p hr, if_pos hr, ?_⟩⟩
  · rw [after_word_errIll, after_word_errSeq, faultOf_illegal s hd]
    simp
  · simp [after_word_errIll, faultOf_ne_illegalCmd s hd]
  · rw [hr, cmdReady_rst]
  · rw [edge_of_rst p hr, after_reset, PortState.applyReset]

end Sys2Proof.Machine.Laws
end

section
/-! PROOFS. The fault record along a run (60_exceptions.md R88, R92, R96): checksum streams leave it, words only add to
it, and a result is trusted only without it. -/

namespace Sys2Proof.Machine.Laws

/-! ### Streams leave the record (R92) -/

theorem sameFaultRecord_checksumStream (s : State) (m : List Byte) :
    sameFaultRecord s (runInputs s (checksumStream m)) := by
  rw [runInputs_checksumStream]
  exact ⟨rfl, rfl, rfl, rfl⟩

theorem sameFaultRecord_trans {s t u : State} (hst : sameFaultRecord s t) (htu : sameFaultRecord t u) :
    sameFaultRecord s u := by
  obtain ⟨hseq, hill, hcause, hcmd⟩ := hst
  obtain ⟨hseq', hill', hcause', hcmd'⟩ := htu
  exact ⟨hseq'.trans hseq, hill'.trans hill, hcause'.trans hcause, hcmd'.trans hcmd⟩

theorem sameFaultRecord_checksumStreams (s : State) (ms : List (List Byte)) :
    sameFaultRecord s (runInputs s (ms.flatMap checksumStream)) := by
  induction ms generalizing s with
  | nil => exact ⟨rfl, rfl, rfl, rfl⟩
  | cons m ms ih =>
    rw [List.flatMap_cons, runInputs_append]
    exact sameFaultRecord_trans (sameFaultRecord_checksumStream s m) (ih _)

/-- Settles O27: in ACCUM every command is in sequence, INIT always is, and each stream leaves the record. -/
theorem inSequenceStreamsRaiseNoFault : Obligations.InSequenceStreamsRaiseNoFault :=
  ⟨fun _ hp => ⟨fun _ => faultOf_inSequence (decode_encode _) hp, faultOf_inSequence (decode_encode _) hp⟩,
    fun s => faultOf_init s (decode_encode .init), sameFaultRecord_checksumStreams⟩

/-! ### The level of `err_o` along a run -/

theorem errLevel_of_sameFaultRecord {s t : State} (h : sameFaultRecord s t) : errLevel t = errLevel s := by
  obtain ⟨hseq, hill, -⟩ := h
  rw [errLevel, errLevel, hseq, hill]

theorem errLevel_after_of_fault {s : State} {w : CmdWord} (h : faultOf w s ≠ .noFault) :
    errLevel (after s (.cmd w)) = true := by
  rw [errLevel, after_word_errSeq, after_word_errIll]
  cases hf : faultOf w s with
  | noFault => exact absurd hf h
  | seqErr => simp
  | illegalCmd => simp

/-- Words never lower `err_o`: one that faults raises it, any other leaves the record. -/
theorem errLevel_after_word {s : State} (w : CmdWord) (h : errLevel s = true) :
    errLevel (after s (.cmd w)) = true := by
  by_cases hf : faultOf w s = .noFault
  · rw [errLevel_of_sameFaultRecord (sameFaultRecord_after_of_noFault hf), h]
  · exact errLevel_after_of_fault hf

theorem errLevel_runInputs {s : State} {l : List Input} (h : errLevel s = true) (hl : ∀ inp ∈ l, inp ≠ .reset) :
    errLevel (runInputs s l) = true := by
  induction l generalizing s with
  | nil => exact h
  | cons inp l ih =>
    obtain ⟨hinp, hrest⟩ := List.forall_mem_cons.mp hl
    cases inp with
    | reset => exact absurd rfl hinp
    | cmd w => exact ih (errLevel_after_word w h) hrest

/-- Settles O28: the stream is run from the state the fault left, whose Cfg is the old one and whose record it leaves. -/
theorem initRecoversAfterFault : Obligations.InitRecoversAfterFault := by
  intro s w m h
  have hrec : sameFaultRecord (after s (.cmd w)) (runInputs s (.cmd w :: checksumStream m)) :=
    sameFaultRecord_checksumStream _ m
  refine ⟨?_, ?_, hrec, ?_⟩
  · rw [runInputs_cons, runInputs_checksumStream_result, after_cfg]
  · rw [runInputs_cons, runInputs_checksumStream, setPhase_phase]
  · rw [errLevel_of_sameFaultRecord hrec, errLevel_after_of_fault h]

/-! ### Trusted results (R96) -/

theorem faultFree_eq_not_errLevel (s : State) : faultFree s = !errLevel s := by
  rw [faultFree, errLevel, Bool.not_or]

theorem trustedResult_of_errLevel {s : State} (h : errLevel s = true) : trustedResult s = none := by
  simp [trustedResult, h]

theorem trustedResult_of_final {s : State} (hp : s.phase = .final) (h : errLevel s = false) :
    trustedResult s = some s.result := by
  simp [trustedResult, resultValid, hp, h]

/-- Settles O29: a checksum stream ends in FINAL with the record it found; without Reset `err_o` stays up. -/
theorem trustedResultMeansNoFault : Obligations.TrustedResultMeansNoFault := by
  refine ⟨fun s m h => ?_, fun s l h hl => ?_⟩
  · rw [faultFree_eq_not_errLevel, Bool.not_eq_true'] at h
    have hfinal : (runInputs s (checksumStream m)).phase = .final := by
      rw [runInputs_checksumStream, setPhase_phase]
    have herr : errLevel (runInputs s (checksumStream m)) = false := by
      rw [errLevel_of_sameFaultRecord (sameFaultRecord_checksumStream s m), h]
    rw [trustedResult_of_final hfinal herr, runInputs_checksumStream_result]
  · rw [faultFree_eq_not_errLevel, Bool.not_eq_false'] at h
    exact trustedResult_of_errLevel (errLevel_runInputs h hl)

end Sys2Proof.Machine.Laws
end

section
/-! PROOFS. Several blocks (60_exceptions.md R95): an input reaches the block it is for and no other, so along an
interleaving each block runs on its own inputs. -/

namespace Sys2Proof.Machine.Laws

theorem system_run_cons (sys : System) (x : Nat × Input) (l : List (Nat × Input)) :
    sys.run (x :: l) = (sys.after x).run l := rfl

theorem inputsOf_cons_same (k : Nat) (inp : Input) (l : List (Nat × Input)) :
    inputsOf k ((k, inp) :: l) = inp :: inputsOf k l := by simp [inputsOf]

theorem inputsOf_cons_other {k j : Nat} (h : j ≠ k) (inp : Input) (l : List (Nat × Input)) :
    inputsOf k ((j, inp) :: l) = inputsOf k l := by simp [inputsOf, h]

theorem system_after_same (sys : System) {k : Nat} {s : State} (inp : Input) (h : sys.blocks[k]? = some s) :
    (sys.after (k, inp)).blocks[k]? = some (after s inp) := by
  rw [System.after, List.getElem?_modify_eq, h]
  rfl

theorem system_after_other (sys : System) {k j : Nat} (inp : Input) (h : j ≠ k) :
    (sys.after (j, inp)).blocks[k]? = sys.blocks[k]? :=
  List.getElem?_modify_ne _ _ h

theorem system_run_block {sys : System} {k : Nat} {s : State} (l : List (Nat × Input))
    (h : sys.blocks[k]? = some s) : (sys.run l).blocks[k]? = some (runInputs s (inputsOf k l)) := by
  induction l generalizing sys s with
  | nil => exact h
  | cons x l ih =>
    obtain ⟨j, inp⟩ := x
    rw [system_run_cons]
    by_cases hj : j = k
    · subst hj
      rw [ih (system_after_same sys inp h), inputsOf_cons_same, runInputs_cons]
    · rw [ih ((system_after_other sys inp hj).trans h), inputsOf_cons_other hj]

theorem system_after_length (sys : System) (x : Nat × Input) : (sys.after x).blocks.length = sys.blocks.length :=
  List.length_modify _ _ _

theorem system_run_length (sys : System) (l : List (Nat × Input)) :
    (sys.run l).blocks.length = sys.blocks.length := by
  induction l generalizing sys with
  | nil => rfl
  | cons x l ih => rw [system_run_cons, ih, system_after_length]

/-- Settles O57, by `system_run_block` and `system_run_length`; after reset the blocks are copies of one state. -/
theorem blocksAreIndependent : Obligations.BlocksAreIndependent :=
  ⟨fun _ l _ _ => system_run_block l, system_run_length,
    fun _ => ⟨List.length_replicate, fun _ => List.eq_of_mem_replicate⟩⟩

end Sys2Proof.Machine.Laws
end

section
/-! PROOFS. Reset (70_reset_and_hazards.md R97, R98, R103): it writes every register, empties the pipeline, and is the
only way back to UNINIT and to a clear `err_o`. -/

namespace Sys2Proof.Machine.Laws

/-- INIT and UPDATE leave the block in ACCUM, FINALIZE in FINAL, and a fault leaves PHASE: no word ends in UNINIT unless
it began there. -/
theorem phase_uninit_of_after_word {s : State} {w : CmdWord} (h : (after s (.cmd w)).phase = .uninit) :
    s.phase = .uninit := by
  obtain ⟨-, ha⟩ | ⟨b, -, -, ha⟩ | ⟨-, -, ha⟩ | ⟨-, -, -, ha⟩ | ⟨-, -, ha⟩ := after_word_cases s w <;> rw [ha] at h
  · cases h
  · exact h
  · cases h
  · rwa [takeFault_phase] at h
  · rwa [takeFault_phase] at h

theorem inputOf_of_rst (p : PortState) {pins : Pins} (hr : pins.rst = true) : p.inputOf pins = [.reset] := if_pos hr

theorem applyReset_inFlight (p : PortState) : p.applyReset.inFlight = none := rfl

/-- An edge with `rst_i` = 1 settles to the reset state, whatever was in flight (R98). -/
theorem edge_of_rst_settled (p : PortState) {pins : Pins} (hr : pins.rst = true) :
    (p.edge pins).settled = after p.settled .reset := by
  rw [edge_settled, inputOf_of_rst p hr, runInputs_cons, runInputs_nil]

/-- Settles O31: a step on Reset is `applyReset` on the rest of the inputs, at the port `edge_of_rst`; no word returns to
UNINIT. -/
theorem resetInputGivesResetState : Obligations.ResetInputGivesResetState := by
  refine ⟨fun s rest hin => step_cons hin, fun s => rfl, fun p pins hr => ?_, fun s w => phase_uninit_of_after_word⟩
  rw [edge_of_rst p hr, PortState.applyReset, after_reset]

/-- Settles O32: `applyReset` field by field, the settled state by `edge_of_rst_settled`, and `err_o` is kept by every
run of words. -/
theorem resetTouchesRegistersOnly : Obligations.ResetTouchesRegistersOnly := by
  refine ⟨fun s => rfl, fun p pins hr => ⟨?_, edge_of_rst_settled p hr⟩, fun s l hl h => errLevel_runInputs h hl⟩
  rw [edge_of_rst p hr, applyReset_inFlight]

/-- Settles O51, by the three arms of `runFromPowerUp`. -/
theorem runsBeforeResetAreRefused : Obligations.RunsBeforeResetAreRefused :=
  ⟨fun _ => rfl, fun _ _ _ => rfl, fun _ _ => rfl⟩

end Sys2Proof.Machine.Laws
end

section
/-! PROOFS. The handshake (70_reset_and_hazards.md R105): when the block is ready, when a word is accepted, and that an
edge which accepts nothing leaves the settled state. -/

namespace Sys2Proof.Machine.Laws

theorem cmdReady_iff (p : PortState) (rst : Bool) : p.cmdReady rst = true ↔ rst = false ∧ p.inFlight = none := by
  simp [PortState.cmdReady]

theorem rst_false_of_cmdReady {p : PortState} {rst : Bool} (h : p.cmdReady rst = true) : rst = false :=
  ((cmdReady_iff p rst).mp h).1

theorem inFlight_none_of_cmdReady {p : PortState} {rst : Bool} (h : p.cmdReady rst = true) : p.inFlight = none :=
  ((cmdReady_iff p rst).mp h).2

theorem accepted_eq_some_iff (p : PortState) (pins : Pins) (w : CmdWord) :
    p.accepted pins = some w ↔ pins.cmdValid = true ∧ p.cmdReady pins.rst = true ∧ pins.cmd = w := by
  simp [PortState.accepted, and_assoc]

theorem settled_of_inFlight_none {p : PortState} (hf : p.inFlight = none) : p.settled = p.block := by
  simp [PortState.settled, hf]

theorem inputOf_of_not_accepted {p : PortState} {pins : Pins} (hr : pins.rst = false) (ha : p.accepted pins = none) :
    p.inputOf pins = [] := by
  simp [PortState.inputOf, hr, ha]

/-- Settles O53: the run by `run_settled`, the handshake by the two characterisations above, and an edge that accepts
nothing settles to the run over no input. -/
theorem portRefinesCommandLevel : Obligations.PortRefinesCommandLevel := by
  refine ⟨run_settled, fun p rst h => ?_, fun p pins w => ?_, fun p pins hr ha => ?_, cmdReady_rst,
    fun p => cmdReady_of_pipeStages_zero⟩
  · have hf : p.inFlight = none := inFlight_none_of_cmdReady h
    exact ⟨hf, settled_of_inFlight_none hf, rst_false_of_cmdReady h⟩
  · rw [accepted_eq_some_iff]
    exact ⟨fun ⟨hv, hready, hw⟩ => ⟨rst_false_of_cmdReady hready, hv, hready, hw⟩, And.right⟩
  · rw [edge_settled, inputOf_of_not_accepted hr ha, runInputs_nil]

end Sys2Proof.Machine.Laws
end

section
/-! PROOFS. The pipeline (70_reset_and_hazards.md R106, R108, R109): it changes no settled state and no output but in
time, keeps a command for 1 to PIPE_STAGES edges, and then commits it. -/

namespace Sys2Proof.Machine.Laws

/-! ### PIPE_STAGES and the outputs (R108) -/

theorem resetWith_pipeStages (c : Cfg) (k : Nat) :
    State.resetWith { c with pipeStages := k } = (State.resetWith c).withTiming c.nInst k := rfl

/-- From reset the block settles to the command-level run from the reset state. -/
theorem run_resetWith_settled (c : Cfg) (l : List Pins) :
    ((PortState.resetWith c).run l).settled =
      runInputs (State.resetWith c) ((PortState.resetWith c).acceptedInputs l) :=
  run_settled (PortState.resetWith c) l

theorem shown_before (p : PortState) (o : OutPort) : p.shown (fun _ => false) o = p.block := by
  cases hf : p.inFlight <;> simp [PortState.shown, hf]

theorem shown_after (p : PortState) (o : OutPort) : p.shown (fun _ => true) o = p.settled := by
  cases hf : p.inFlight <;> simp [PortState.shown, PortState.settled, hf]

/-- A view of the state that a port shows is that of the registers or that of the settled state. -/
theorem view_shown_cases {α : Type} (view : State → α) (p : PortState) (showsAfter : OutPort → Bool) (o : OutPort) :
    view (p.shown showsAfter o) = view p.block ∨ view (p.shown showsAfter o) = view p.settled :=
  (shown_cases p showsAfter o).imp (congrArg view) (congrArg view)

/-- Settles O54: both blocks settle to the run over the same inputs, which reads no timing parameter; a port shows the
registers or the settled state, and these are one when the block is ready. -/
theorem pipeStagesAreInvisible : Obligations.PipeStagesAreInvisible := by
  refine ⟨fun c k l l' hacc => ?_, fun p rst showsAfter h => ?_, fun p showsAfter => ?_, fun p => ⟨?_, ?_⟩⟩
  · rw [run_resetWith_settled, run_resetWith_settled, ← hacc, resetWith_pipeStages c k, runInputs_withTiming]
    rfl
  · have hf : p.inFlight = none := inFlight_none_of_cmdReady h
    rw [outputs_of_inFlight_none showsAfter hf, settled_of_inFlight_none hf]
  · exact ⟨view_shown_cases State.acc p showsAfter .acc, view_shown_cases State.result p showsAfter .result,
      view_shown_cases resultValid p showsAfter .resultValid,
      view_shown_cases (fun s => s.phase.toBits) p showsAfter .phase,
      view_shown_cases State.errSeq p showsAfter .errSeq, view_shown_cases State.errIll p showsAfter .errIll,
      view_shown_cases errLevel p showsAfter .err, view_shown_cases finfoView p showsAfter .finfo⟩
  · simp only [PortState.outputs, shown_before, outputs]
  · simp only [PortState.outputs, shown_after, outputs]

/-! ### What the pipeline holds after an edge (R106, R108) -/

theorem launch_of_pipeStages_zero {p : PortState} (w : CmdWord) (hk : p.block.cfg.pipeStages = 0) :
    p.launch w = { p with block := after p.block (.cmd w) } := by
  rw [PortState.launch, hk]

theorem launch_of_pipeStages_succ {p : PortState} {k : Nat} (w : CmdWord) (hk : p.block.cfg.pipeStages = k + 1) :
    p.launch w = { p with inFlight := some ⟨w, k + 1⟩ } := by
  rw [PortState.launch, hk]

theorem advance_one (p : PortState) (w : CmdWord) : p.advance ⟨w, 1⟩ = ⟨after p.block (.cmd w), none⟩ := rfl

theorem advance_add_two (p : PortState) (w : CmdWord) (n : Nat) :
    p.advance ⟨w, n + 2⟩ = { p with inFlight := some ⟨w, n + 1⟩ } := rfl

theorem edge_of_inFlight {p : PortState} {pins : Pins} {f : InFlight} (hr : pins.rst = false)
    (hf : p.inFlight = some f) : p.edge pins = p.advance f := by
  simp [PortState.edge, hr, hf]

theorem edge_of_accepted {p : PortState} {pins : Pins} {w : CmdWord} (h : p.accepted pins = some w) :
    p.inFlight = none ∧ p.edge pins = p.launch w := by
  obtain ⟨hv, hready, rfl⟩ := (accepted_eq_some_iff p pins w).mp h
  have hf : p.inFlight = none := inFlight_none_of_cmdReady hready
  exact ⟨hf, by simp [PortState.edge, rst_false_of_cmdReady hready, hf, hv]⟩

/-! ### The pipeline invariant -/

theorem portInv_of_inFlight_none {p : PortState} (hf : p.inFlight = none) : PortInv p := by
  simp [PortInv, hf]

theorem portInv_of_inFlight_some {p : PortState} {f : InFlight} (hf : p.inFlight = some f) (hlow : 1 ≤ f.edgesLeft)
    (hhigh : f.edgesLeft ≤ p.block.cfg.pipeStages) : PortInv p := by
  intro g hg
  cases hf.symm.trans hg
  exact ⟨hlow, hhigh⟩

/-- A command enters the pipeline at its first stage, with PIPE_STAGES edges to go. -/
theorem portInv_launch {p : PortState} (w : CmdWord) (hf : p.inFlight = none) : PortInv (p.launch w) := by
  cases hk : p.block.cfg.pipeStages with
  | zero =>
    rw [launch_of_pipeStages_zero w hk]
    exact portInv_of_inFlight_none hf
  | succ k =>
    rw [launch_of_pipeStages_succ w hk]
    exact portInv_of_inFlight_some rfl (Nat.le_add_left 1 k) hk.ge

/-- A command moves on by one edge, or leaves the pipeline at its last. -/
theorem portInv_advance {p : PortState} {f : InFlight} (hf : p.inFlight = some f) (h : PortInv p) :
    PortInv (p.advance f) := by
  obtain ⟨w, n⟩ := f
  obtain ⟨hlow, hhigh⟩ := h _ hf
  match n with
  | 0 => exact absurd hlow (by simp)
  | 1 => exact portInv_of_inFlight_none rfl
  | m + 2 => exact portInv_of_inFlight_some rfl (Nat.le_add_left 1 m) (Nat.le_of_succ_le hhigh)

/-- Settles O56, by what an edge can do: empty the pipeline, move a command on, launch one, or nothing. -/
theorem everyEdgeKeepsPortInv : Obligations.EveryEdgeKeepsPortInv := by
  refine ⟨fun c => portInv_of_inFlight_none rfl, fun p pins h => ?_⟩
  obtain ⟨-, he⟩ | ⟨f, -, hf, he⟩ | ⟨-, hf, -, he⟩ | ⟨-, -, -, he⟩ := edge_cases p pins <;> rw [he]
  · exact portInv_of_inFlight_none (applyReset_inFlight p)
  · exact portInv_advance hf h
  · exact portInv_launch _ hf
  · exact h

/-! ### Bounded completion (R109) -/

/-- A command in flight is committed by exactly as many edges as it has to go, if none of them is a Reset. -/
theorem run_commits_inFlight {p : PortState} {w : CmdWord} {l : List Pins} (hl : l ≠ [])
    (hf : p.inFlight = some ⟨w, l.length⟩) (hr : ∀ pins ∈ l, pins.rst = false) :
    p.run l = ⟨after p.block (.cmd w), none⟩ := by
  induction l generalizing p with
  | nil => exact absurd rfl hl
  | cons pins l ih =>
    obtain ⟨hpins, hrest⟩ := List.forall_mem_cons.mp hr
    rw [port_run_cons, edge_of_inFlight hpins hf]
    cases l with
    | nil => exact advance_one p w
    | cons pins' l =>
      rw [List.length_cons, List.length_cons, advance_add_two]
      exact ih (List.cons_ne_nil _ _) rfl hrest

/-- From the edge that accepts a word, `1 + PIPE_STAGES` edges commit it and leave the pipeline empty. -/
theorem run_commits_accepted {p : PortState} {first : Pins} {later : List Pins} {w : CmdWord}
    (ha : p.accepted first = some w) (hlen : later.length = p.block.cfg.pipeStages)
    (hr : ∀ pins ∈ later, pins.rst = false) : p.run (first :: later) = ⟨after p.block (.cmd w), none⟩ := by
  obtain ⟨hf, he⟩ := edge_of_accepted ha
  rw [port_run_cons, he]
  cases later with
  | nil => rw [launch_of_pipeStages_zero w hlen.symm, hf, port_run_nil]
  | cons second later =>
    rw [launch_of_pipeStages_succ w hlen.symm]
    exact run_commits_inFlight (List.cons_ne_nil _ _) rfl hr

/-- Settles O55, by `run_commits_accepted`: with the pipeline empty `cmd_ready_o` is 1 outside reset. -/
theorem acceptedCommandCompletesInBoundedTime : Obligations.AcceptedCommandCompletesInBoundedTime := by
  intro p first later w ha hlen hr
  rw [run_commits_accepted ha hlen hr]
  exact ⟨rfl, rfl⟩

end Sys2Proof.Machine.Laws
end
